-- ==== Sys2Proof/Word.lean ====
section
/-! DEFINITION. The byte of a command and the byte values of the characters the spec names
(30_encoding.md R81). The block has no machine word: a command is a string of bytes and a tri-state
symbol is a two-bit code; everything else is a natural number or a named value. -/

namespace Sys2Proof

/-- One character of the command string, one byte (R24, R81). -/
abbrev Byte := BitVec 8

/-- The character '0' (R81). PRESUMED by the spec itself: ASCII, `[from general knowledge]`. -/
def Byte.char0 : Byte := 0x30#8

/-- The character '1' (R81). -/
def Byte.char1 : Byte := 0x31#8

/-- The character 'A' (R81). -/
def Byte.charA : Byte := 0x41#8

/-- The character 'B' (R81). -/
def Byte.charB : Byte := 0x42#8

/-- The character 'C' (R81). -/
def Byte.charC : Byte := 0x43#8

/-- The character 'D' (R81). -/
def Byte.charD : Byte := 0x44#8

end Sys2Proof
end

