-- ==== Sys2Proof/Syntax.lean ====
section
/-! DEFINITION. The whole instruction set of spec/opcode_table.json: the eight commands (format `CMD56`,
30_encoding.md R80, R86, R87) and the four symbol operations of the transmitter (format `SYM2`, R88). -/

namespace Sys2Proof

/-- Five address characters `a0..a4`, in the command's order (R58, R82). -/
abbrev AddrChars := Vector Byte 5

/-- The channel letter of a command (R80, R83): there is no fifth letter (R90). -/
inductive Letter where
  | a
  | b
  | c
  | d
deriving DecidableEq, Repr, Inhabited

/-- A tri-state symbol as the transmitter holds it in two bits (R28, R88); `other` is the reserved code
0b11, "any other symbol" (R91). -/
inductive Symbol where
  | s0
  | s1
  | sf
  | other
deriving DecidableEq, Repr, Inhabited

/-- A codeword: twelve symbols, index 0 first in time (R28, R59). -/
abbrev Codeword := Vector Symbol 12

/-- The instructions. The commands carry their five address characters; a symbol operation has no operand
(the position it acts at is the sequencer's, R173). -/
inductive Instr where
  /-- `SW_A_OFF aaaaa` (R120). -/
  | swAOff (addr : AddrChars)
  /-- `SW_A_ON aaaaa` (R121). -/
  | swAOn (addr : AddrChars)
  /-- `SW_B_OFF aaaaa` (R122). -/
  | swBOff (addr : AddrChars)
  /-- `SW_B_ON aaaaa` (R123). -/
  | swBOn (addr : AddrChars)
  /-- `SW_C_OFF aaaaa` (R124). -/
  | swCOff (addr : AddrChars)
  /-- `SW_C_ON aaaaa` (R125). -/
  | swCOn (addr : AddrChars)
  /-- `SW_D_OFF aaaaa` (R126). -/
  | swDOff (addr : AddrChars)
  /-- `SW_D_ON aaaaa` (R127). -/
  | swDOn (addr : AddrChars)
  /-- `TX0`, the symbol '0' (R163). -/
  | tx0
  /-- `TX1`, the symbol '1' (R164). -/
  | tx1
  /-- `TXF`, the symbol 'F' (R165). -/
  | txF
  /-- `TXNOP`, any other symbol (R166). -/
  | txNop
deriving DecidableEq, Repr

/-- The five named errors a command can be rejected with (60_exceptions.md R190), each with the payload the
source gives it: the offending character, and for the address its position (R191 to R195). The positions of
the other two are fixed (5 and 6). -/
inductive CmdError where
  | invalidLength
  | invalidAddressChar (char : Byte) (pos : Fin 5)
  | invalidChannelChar (char : Byte)
  | invalidStateChar (char : Byte)
  | invalidEncoding
deriving DecidableEq, Repr

end Sys2Proof
end

