-- ==== Sys2Proof/Config.lean ====
section
/-! DEFINITION. What is fixed for the machine: the default timing unit and the free values of the model. A free
value is a constant with no body, so nothing can be proved about which value it is; the argument is the
counter `State.draws`, so that each draw is fresh. The constants of the protocol (00_scope.md R6) that are
sizes of types stand in Machine/State.lean; the timing tables stand in Machine/Operands.lean. -/

namespace Sys2Proof

/-- The default of `CFG.T_UNIT`, in microseconds (R7, R21). -/
def Config.defaultTUnit : Nat := 350

/-- The fixed protocol constant `N_REPEAT` (R6, R161). -/
def Config.nRepeat : Nat := 10

/-- FREE VALUE (assumption 5): what `CMD` holds when nothing specifies it: after a submission of fewer than
seven characters (R24) and after a command has ended (R41). -/
opaque Config.freeCmd : Nat → Vector Byte 7

/-- FREE VALUE (assumption 5): `LEN_OK` after a command has ended (R41 "the rest unspecified"). -/
opaque Config.freeLenOk : Nat → Bool

/-- FREE VALUE (assumption 4): the "unspecified address characters" of `ADDR` after a failed step 1 (R25 (3)),
as five binary choices: each is '0' (`false`) or '1' (`true`), the limit the spec sets. -/
opaque Config.freeAddr : Nat → Vector Bool 5

/-- FREE VALUE (assumption 5): `CHAN` after a command has ended (R41). -/
opaque Config.freeChan : Nat → BitVec 3

/-- FREE VALUE (assumption 5): `STATE` after a command has ended (R41). -/
opaque Config.freeState : Nat → Bool

/-- FREE VALUE (assumption 5): `CW` after a command has ended (R41). -/
opaque Config.freeCw : Nat → Codeword

/-- FREE VALUE (assumption 5): `CW_OK` after a command has ended (92_eei_decisions.md D10). -/
opaque Config.freeCwOk : Nat → Bool

end Sys2Proof
end

