-- ==== Sys2Proof/WellFormed.lean ====
section
/-! DEFINITION. Which instructions are well formed: a command's five address characters are each '0' or '1'
(30_encoding.md R80, R82). Channel and state are part of the constructor, so nothing else can be wrong. -/

namespace Sys2Proof

/-- An address character: '0' or '1', by exact byte value (R81, R82). -/
def isAddrChar (c : Byte) : Bool :=
  c == Byte.char0 || c == Byte.char1

/-- All five characters are address characters (R82). -/
def wfAddr (a : AddrChars) : Bool :=
  isAddrChar a[0] && isAddrChar a[1] && isAddrChar a[2] && isAddrChar a[3] && isAddrChar a[4]

/-- The well-formed instructions: the 8 * 32 commands (R87) and the four symbol operations. -/
def Instr.wf : Instr → Bool
  | .swAOff a => wfAddr a
  | .swAOn a => wfAddr a
  | .swBOff a => wfAddr a
  | .swBOn a => wfAddr a
  | .swCOff a => wfAddr a
  | .swCOn a => wfAddr a
  | .swDOff a => wfAddr a
  | .swDOn a => wfAddr a
  | .tx0 => true
  | .tx1 => true
  | .txF => true
  | .txNop => true

end Sys2Proof
end

