-- ==== Sys2Proof/Decode.lean ====
section
/-! DEFINITION. The decoder and the encoder: the command string (30_encoding.md R80 to R90, R94), the two-bit
symbol code (R88), the packed words `CMD56` and `CW24` (20_memory.md R60) and the opcode map (R87).
The decoder is total: it gives a verdict on every byte string (R93), an instruction or exactly one error, in
the order of R89 and R198. -/

namespace Sys2Proof

/-! ### The command string -/

/-- What the block latches of a command: its first seven characters where it has that many (R24, R85). -/
def firstSeven : List Byte → Option (Vector Byte 7)
  | c0 :: c1 :: c2 :: c3 :: c4 :: c5 :: c6 :: _ => some #v[c0, c1, c2, c3, c4, c5, c6]
  | _ => none

/-- The address field, characters 0 to 4, in order (R58, R82). -/
def addrField (cmd : Vector Byte 7) : AddrChars :=
  #v[cmd[0], cmd[1], cmd[2], cmd[3], cmd[4]]

/-- The least position of the address that holds neither '0' nor '1' (R89, R112). -/
def firstBadAddr (a : AddrChars) : Option (Fin 5) :=
  if !isAddrChar a[0] then some 0
  else if !isAddrChar a[1] then some 1
  else if !isAddrChar a[2] then some 2
  else if !isAddrChar a[3] then some 3
  else if !isAddrChar a[4] then some 4
  else none

/-- The channel letter, by exact byte value: 'A' to 'D', no lower case and no 'E' (R83, R90). -/
def decodeLetter (c : Byte) : Option Letter :=
  if c = Byte.charA then some .a
  else if c = Byte.charB then some .b
  else if c = Byte.charC then some .c
  else if c = Byte.charD then some .d
  else none

/-- The state character: '0' is off, '1' is on (R84). -/
def decodeState (c : Byte) : Option Bool :=
  if c = Byte.char0 then some false
  else if c = Byte.char1 then some true
  else none

/-- The mnemonic of a channel letter and a state (R87). -/
def commandInstr (l : Letter) (on : Bool) (a : AddrChars) : Instr :=
  match l, on with
  | .a, false => .swAOff a
  | .a, true => .swAOn a
  | .b, false => .swBOff a
  | .b, true => .swBOn a
  | .c, false => .swCOff a
  | .c, true => .swCOn a
  | .d, false => .swDOff a
  | .d, true => .swDOn a

/-- Decoding seven characters, left to right: address, then channel, then state (R89, R112 to R114). -/
def decodeCommand (cmd : Vector Byte 7) : Except CmdError Instr :=
  match firstBadAddr (addrField cmd) with
  | some p => .error (.invalidAddressChar (addrField cmd)[p] p)
  | none =>
    match decodeLetter cmd[5] with
    | none => .error (.invalidChannelChar cmd[5])
    | some l =>
      match decodeState cmd[6] with
      | none => .error (.invalidStateChar cmd[6])
      | some on => .ok (commandInstr l on (addrField cmd))

/-- Decoding what is latched: the length is tested before any character is examined (R61, R111). -/
def decodeLatched (lenOk : Bool) (cmd : Vector Byte 7) : Except CmdError Instr :=
  if lenOk then decodeCommand cmd else .error .invalidLength

/-- Decoding a command string of any length (R89, R94). -/
def decodeBytes (bs : List Byte) : Except CmdError Instr :=
  match firstSeven bs with
  | some cmd => decodeCommand cmd
  | none => .error .invalidLength

/-! ### The symbol code -/

/-- The symbol of a two-bit code (R88). -/
def Symbol.ofCode (w : BitVec 2) : Symbol :=
  if w = 0b00#2 then .s0
  else if w = 0b01#2 then .s1
  else if w = 0b10#2 then .sf
  else .other

/-- The two-bit code of a symbol (R88). -/
def Symbol.code : Symbol → BitVec 2
  | .s0 => 0b00#2
  | .s1 => 0b01#2
  | .sf => 0b10#2
  | .other => 0b11#2

/-- The transmitter operation a symbol selects (R88). -/
def decodeSymbol : Symbol → Instr
  | .s0 => .tx0
  | .s1 => .tx1
  | .sf => .txF
  | .other => .txNop

/-! ### Both formats together -/

/-- The bits of an instruction in its own format: the bytes of a command, or a symbol code. -/
abbrev Encoding := List Byte ⊕ BitVec 2

/-- The decoder over both formats. -/
def decode : Encoding → Except CmdError Instr
  | .inl bs => decodeBytes bs
  | .inr w => .ok (decodeSymbol (Symbol.ofCode w))

/-- The character of a channel letter (R80). -/
def Letter.char : Letter → Byte
  | .a => Byte.charA
  | .b => Byte.charB
  | .c => Byte.charC
  | .d => Byte.charD

/-- The character of a state (R84). -/
def stateChar (on : Bool) : Byte :=
  if on then Byte.char1 else Byte.char0

/-- The seven characters `AAAAACS` (R80). -/
def commandChars (l : Letter) (on : Bool) (a : AddrChars) : Vector Byte 7 :=
  #v[a[0], a[1], a[2], a[3], a[4], l.char, stateChar on]

/-- The encoder: a command's seven characters (R80, R95), a symbol's code (R88). -/
def encode : Instr → Encoding
  | .swAOff a => .inl (commandChars .a false a).toList
  | .swAOn a => .inl (commandChars .a true a).toList
  | .swBOff a => .inl (commandChars .b false a).toList
  | .swBOn a => .inl (commandChars .b true a).toList
  | .swCOff a => .inl (commandChars .c false a).toList
  | .swCOn a => .inl (commandChars .c true a).toList
  | .swDOff a => .inl (commandChars .d false a).toList
  | .swDOn a => .inl (commandChars .d true a).toList
  | .tx0 => .inr 0b00#2
  | .tx1 => .inr 0b01#2
  | .txF => .inr 0b10#2
  | .txNop => .inr 0b11#2

/-! ### The packed words and the opcode map -/

/-- `CMD56`: character `i` in bits `[55-8i : 48-8i]` (R60, R86). -/
def packCmd56 (cmd : Vector Byte 7) : BitVec 56 :=
  (cmd[0] ++ cmd[1] ++ cmd[2] ++ cmd[3] ++ cmd[4] ++ cmd[5] ++ cmd[6]).cast (by decide)

/-- The seven characters of a packed command word (R60, R86). -/
def unpackCmd56 (w : BitVec 56) : Vector Byte 7 :=
  #v[w.extractLsb' 48 8, w.extractLsb' 40 8, w.extractLsb' 32 8, w.extractLsb' 24 8,
    w.extractLsb' 16 8, w.extractLsb' 8 8, w.extractLsb' 0 8]

/-- `CW24`: symbol `i` in bits `[23-2i : 22-2i]` (R60, R88). -/
def packCw24 (cw : Codeword) : BitVec 24 :=
  (cw[0].code ++ cw[1].code ++ cw[2].code ++ cw[3].code ++ cw[4].code ++ cw[5].code ++
    cw[6].code ++ cw[7].code ++ cw[8].code ++ cw[9].code ++ cw[10].code ++ cw[11].code).cast (by decide)

/-- The mask of all eight rows of the opcode map (R87). -/
def commandMask : BitVec 56 := 0xFEFEFEFEFEFFFF#56

/-- The match of each row of the opcode map (R87). -/
def commandMatch (l : Letter) (on : Bool) : BitVec 56 :=
  match l, on with
  | .a, false => 0x30303030304130#56
  | .a, true => 0x30303030304131#56
  | .b, false => 0x30303030304230#56
  | .b, true => 0x30303030304231#56
  | .c, false => 0x30303030304330#56
  | .c, true => 0x30303030304331#56
  | .d, false => 0x30303030304430#56
  | .d, true => 0x30303030304431#56

/-- The mask spec/opcode_table.json gives an instruction's row. -/
def Instr.tableMask : Instr → Nat
  | .swAOff _ => 0xFEFEFEFEFEFFFF
  | .swAOn _ => 0xFEFEFEFEFEFFFF
  | .swBOff _ => 0xFEFEFEFEFEFFFF
  | .swBOn _ => 0xFEFEFEFEFEFFFF
  | .swCOff _ => 0xFEFEFEFEFEFFFF
  | .swCOn _ => 0xFEFEFEFEFEFFFF
  | .swDOff _ => 0xFEFEFEFEFEFFFF
  | .swDOn _ => 0xFEFEFEFEFEFFFF
  | .tx0 => 0x3
  | .tx1 => 0x3
  | .txF => 0x3
  | .txNop => 0x3

/-- The match spec/opcode_table.json gives an instruction's row. -/
def Instr.tableMatch : Instr → Nat
  | .swAOff _ => 0x30303030304130
  | .swAOn _ => 0x30303030304131
  | .swBOff _ => 0x30303030304230
  | .swBOn _ => 0x30303030304231
  | .swCOff _ => 0x30303030304330
  | .swCOn _ => 0x30303030304331
  | .swDOff _ => 0x30303030304430
  | .swDOn _ => 0x30303030304431
  | .tx0 => 0x0
  | .tx1 => 0x1
  | .txF => 0x2
  | .txNop => 0x3

/-- An instruction's bits as one number, numbered as spec/opcode_table.json numbers them (R60: bit 0 of a
`CMD56` word is the least significant bit of character 6). -/
def Instr.tableWord (i : Instr) : Nat :=
  match encode i with
  | .inl bs =>
    match firstSeven bs with
    | some cmd => (packCmd56 cmd).toNat
    | none => 0
  | .inr w => w.toNat

/-- The encoding that a table word of `nbits` bits stands for: 56 bits are the seven characters of a command
(R86), two bits (or the one byte they are rounded up to) are a symbol code, of which the row's mask 0x3 looks
at the low two bits only (R88). No row has another width. -/
def tableEncoding (nbits w : Nat) : Option Encoding :=
  if nbits = 56 then some (.inl (unpackCmd56 (BitVec.ofNat 56 w)).toList)
  else if 2 ≤ nbits ∧ nbits ≤ 8 then some (.inr (BitVec.ofNat 2 w))
  else none

/-- The instruction the decoder reads from a word numbered as spec/opcode_table.json numbers it. -/
def decodeTableWord (nbits w : Nat) : Option Instr :=
  match tableEncoding nbits w with
  | none => none
  | some e =>
    match decode e with
    | .ok i => some i
    | .error _ => none

end Sys2Proof
end

