-- ==== Sys2Proof/Machine/State.lean ====
section
/-! DEFINITION. The state of the block (10_state.md R20 to R36), its value after reset (R40, R230), the reasons a
step is refused (70_reset_and_hazards.md R243), and the host's moves. -/

namespace Sys2Proof.Machine

/-- A pin identifier, opaque: the block compares identifiers and never computes with them (R22). -/
structure PinId where
  name : Nat
deriving DecidableEq, Repr

/-- The configuration (R7, R21, R22). A pin that is `none` is unset, the spec's own value after reset (R40). -/
structure Cfg where
  tUnit : Nat
  txPin : Option PinId
  enPin : Option PinId
deriving DecidableEq, Repr

/-- The control register `PHASE` (R23). -/
inductive Phase where
  | init
  | active
  | stopped
deriving DecidableEq, Repr

/-- A pin level (R10, R34). -/
inductive Level where
  | low
  | high
deriving DecidableEq, Repr

/-- One event of the trace: a call of one of the two capabilities (R10). -/
inductive Event where
  | set (level : Level)
  | delay (us : Nat)
deriving DecidableEq, Repr

/-- Which half of a pulse (R30). -/
inductive Half where
  | h
  | l
deriving DecidableEq, Repr

/-- The place inside a repetition: pulse `pul` of the data symbol `sym`, or the sync slot after the twelfth symbol,
where `pul` is always 0 (R30). -/
inductive Slot where
  | data (sym : Fin 12) (pul : Fin 2)
  | sync
deriving DecidableEq, Repr

/-- The sequencer position `SEQ`, 502 values (R30); `rep` counts the `N_REPEAT` = 10 repetitions (R161). -/
inductive Seq where
  | idle
  | parse
  | tx (rep : Fin 10) (slot : Slot) (half : Half)
deriving DecidableEq, Repr

/-- The status register `RESULT` (R32). -/
inductive Result where
  | none
  | ok
  | invalidLength
  | invalidAddressChar
  | invalidChannelChar
  | invalidStateChar
  | invalidEncoding
deriving DecidableEq, Repr

/-- The moves of the host, one for each row of the table of R243; a configuration write names one register. -/
inductive HostMove where
  /-- Reset (R230). -/
  | reset
  /-- Write `CFG.T_UNIT` (R21, R235). -/
  | writeTUnit (us : Nat)
  /-- Write `CFG.TX_PIN` (R22, R235). -/
  | writeTxPin (pin : PinId)
  /-- Write `CFG.EN_PIN` (R22, R235). -/
  | writeEnPin (pin : PinId)
  /-- Boot, with the outcome of acquiring the two pins (R231, R232). -/
  | boot (acquired : Bool)
  /-- Submit a command string of any length (R57). -/
  | submit (cmd : List Byte)
  /-- Read `BUSY`, `RESULT`, `ERR_CHAR`, `ERR_POS` (R243). -/
  | readStatus
  /-- Observe the pin or the trace (R243). -/
  | observePin
  /-- Shutdown (R233). -/
  | shutdown
deriving DecidableEq, Repr

/-- What the host does at one step of the machine: nothing, so that the block takes a step of its own, or a move. -/
inductive HostTurn where
  | wait
  | act (move : HostMove)
deriving DecidableEq, Repr

/-- The complete state (R20), and two fields of the model's own: `host` and `draws`. -/
structure State where
  /-- `CFG` (R21, R22). -/
  cfg : Cfg
  /-- `PHASE` (R23). -/
  phase : Phase
  /-- `CMD[0..6]` (R24). -/
  cmd : Vector Byte 7
  /-- `LEN_OK` (R24). -/
  lenOk : Bool
  /-- `ADDR[0..4]` (R25). -/
  addr : AddrChars
  /-- `CHAN` (R26). -/
  chan : BitVec 3
  /-- `STATE`, on or off (R27). -/
  swState : Bool
  /-- `CW[0..11]` (R28). -/
  cw : Codeword
  /-- `CW_OK` (R28). -/
  cwOk : Bool
  /-- `SEQ` (R30). -/
  seq : Seq
  /-- `RESULT` (R32). -/
  result : Result
  /-- `ERR_CHAR` (R33). -/
  errChar : Byte
  /-- `ERR_POS` (R33). -/
  errPos : BitVec 3
  /-- `TX`, the level of the output pin (R34). -/
  tx : Level
  /-- `EN`, the level of the enable pin (R35). -/
  en : Level
  /-- The trace so far, oldest event first (R10, R40). -/
  trace : List Event
  /-- The MODEL's own field: the host's turns to come, next one first (assumption 2). -/
  host : List HostTurn
  /-- The MODEL's own field: how many times free values have been drawn (assumption 6). -/
  draws : Nat
deriving DecidableEq, Repr

/-- `BUSY`, which is 1 exactly when `SEQ` is not `IDLE` (R31): derived, so it is computed and not stored. -/
def State.busy (s : State) : Bool :=
  s.seq != .idle

/-- Why a step can stop with a fault: never. "The block has no fault state at all" (R244), so the type has no
constructor. Nobody raises it; safe (assumption 25). -/
inductive Fault where
deriving DecidableEq, Repr

/-- Why a step is refused. -/
inductive Refusal where
  /-- Raised by exec's arm of an instruction that has no meaning yet. Safe. -/
  | notModelled (mnemonic : String)
  /-- Raised by the move `submit` when `BUSY = 1` (R234, R243). Safe: the spec gives no behaviour and has the
  model refuse. -/
  | submitWhileBusy
  /-- Raised by the move `submit` when `PHASE` is not `ACTIVE` (R236, R243). Safe, as the spec has it. -/
  | submitWrongPhase
  /-- Raised by a configuration write when `PHASE` is not `INIT` (R235, R243). Safe, as the spec has it. -/
  | configWrongPhase
  /-- Raised by a write of 0 to `CFG.T_UNIT` (R21, R243). Safe, as the spec has it. -/
  | zeroTUnit
  /-- Raised by the move `boot` when `PHASE` is not `INIT` (R231, R243). Safe. -/
  | bootWrongPhase
  /-- Raised by the move `boot` when a pin identifier is unset (R231). Safe. -/
  | pinsNotGiven
  /-- Raised by the move `boot` when both identifiers name one pin (R22, R238). Safe. -/
  | pinsNotDistinct
  /-- Raised by the move `boot` when the pins cannot be acquired (R232; 93_implementation_defined.md U9: refuse).
  Safe. -/
  | pinsNotAcquired
  /-- Raised by the move `shutdown` when `PHASE` is not `ACTIVE` (R233, R243). Safe. -/
  | shutdownWrongPhase
  /-- Raised by the move `shutdown` when `BUSY = 1` (R233, R243). Safe, as the spec has it. -/
  | shutdownWhileBusy
  /-- Raised by the move `reset` when `BUSY = 1`: such a run is outside every claim (R230, R243). Safe. -/
  | resetWhileBusy
deriving DecidableEq, Repr

/-- The outcome of a step of this machine. -/
abbrev StepOutcome := Host.Outcome State Fault Refusal

/-- The machine right after reset (R40, R230). The values of `cmd`, `lenOk`, `addr`, `chan`, `swState`, `cw` are the
model's (DESIGN CHOICE, unsafe, assumption 1): the spec leaves them unspecified. -/
def State.reset : State where
  cfg := { tUnit := Config.defaultTUnit, txPin := Option.none, enPin := Option.none }
  phase := .init
  cmd := #v[0#8, 0#8, 0#8, 0#8, 0#8, 0#8, 0#8]
  lenOk := false
  addr := #v[Byte.char0, Byte.char0, Byte.char0, Byte.char0, Byte.char0]
  chan := 0#3
  swState := false
  cw := #v[.s0, .s0, .s0, .s0, .s0, .s0, .s0, .s0, .s0, .s0, .s0, .s0]
  cwOk := false
  seq := .idle
  result := .none
  errChar := 0#8
  errPos := 0#3
  tx := .low
  en := .low
  trace := []
  host := []
  draws := 0

end Sys2Proof.Machine
end

