-- ==== Sys2Proof/Machine/Operands.lean ====
section
/-! DEFINITION. The operand forms of the block: the five read-only tables (20_memory.md R50 to R56), the fields a
parsed command yields (30_encoding.md R82 to R84) and the positions of the sequencer (10_state.md R30,
42_waveform_transmitter.md R173). -/

namespace Sys2Proof.Machine

/-- An elementary pulse as the pair of its widths in timing units (R54, R168). -/
structure Pulse where
  high : Nat
  low : Nat
deriving DecidableEq, Repr

/-- `ADDRMAP`: '0' gives 'F', '1' gives '0', any other character has no row (R53; 90_conflicts.md C1). -/
def addrMap (c : Byte) : Option Symbol :=
  if c = Byte.char0 then some .sf
  else if c = Byte.char1 then some .s0
  else none

/-- The map `m` in which the rules of the eight commands write a codeword's address part: `ADDRMAP` on address
characters, `m('0') = 'F'`, `m('1') = '0'` (40_command_parser.md section 2). -/
def addrSymbol (c : Byte) : Symbol :=
  if c = Byte.char1 then .s0 else .sf

/-- `CHROM`, six rows; rows 6 and 7 do not exist (R51). -/
def chRom (c : BitVec 3) : Option (Vector Symbol 5) :=
  if c = 0#3 then some #v[.sf, .sf, .sf, .sf, .sf]
  else if c = 1#3 then some #v[.s0, .sf, .sf, .sf, .sf]
  else if c = 2#3 then some #v[.sf, .s0, .sf, .sf, .sf]
  else if c = 3#3 then some #v[.sf, .sf, .s0, .sf, .sf]
  else if c = 4#3 then some #v[.sf, .sf, .sf, .s0, .sf]
  else if c = 5#3 then some #v[.sf, .sf, .sf, .sf, .s0]
  else none

/-- `STROM`: off is "F0", on is "0F" (R52). -/
def stRom (on : Bool) : Vector Symbol 2 :=
  if on then #v[.s0, .sf] else #v[.sf, .s0]

/-- `PULSEROM`: two pulses for each of the three symbols, no row for any other (R54). -/
def pulseRom : Symbol → Option (Vector Pulse 2)
  | .s0 => some #v[⟨1, 3⟩, ⟨1, 3⟩]
  | .s1 => some #v[⟨3, 1⟩, ⟨3, 1⟩]
  | .sf => some #v[⟨1, 3⟩, ⟨3, 1⟩]
  | .other => none

/-- `SYNCROM`: high 1 unit, low 31 units (R55). -/
def syncRom : Pulse := ⟨1, 31⟩

/-- The channel number of a letter: 'A' to 'D' are 1 to 4 (R83). -/
def channelOf : Letter → BitVec 3
  | .a => 1#3
  | .b => 2#3
  | .c => 3#3
  | .d => 4#3

/-- The address characters that five binary choices stand for, '0' for `false` and '1' for `true`. -/
def addrOfBits (v : Vector Bool 5) : AddrChars :=
  #v[stateChar v[0], stateChar v[1], stateChar v[2], stateChar v[3], stateChar v[4]]

/-- Where the first half of the first pulse of a repetition stands (R173 "Entry"). -/
def Seq.repStart (rep : Fin 10) : Seq :=
  .tx rep (.data 0 0) .h

/-- The position after the data symbol `sym`: the next symbol, or the sync slot after the twelfth (R173). -/
def Seq.afterSymbol (rep : Fin 10) (sym : Fin 12) : Seq :=
  if h : sym.val + 1 < 12 then .tx rep (.data ⟨sym.val + 1, h⟩ 0) .h else .tx rep .sync .h

/-- The position after the low half of pulse `pul` of the data symbol `sym` (R173). -/
def Seq.afterPulse (rep : Fin 10) (sym : Fin 12) (pul : Fin 2) : Seq :=
  if pul = 0 then .tx rep (.data sym 1) .h else Seq.afterSymbol rep sym

/-- The next repetition, if `rep` is not the tenth (R161, R173). -/
def nextRep (rep : Fin 10) : Option (Fin 10) :=
  if h : rep.val + 1 < 10 then some ⟨rep.val + 1, h⟩ else none

end Sys2Proof.Machine
end

