-- ==== Sys2Proof/Machine/Flags.lean ====
section
/-! DEFINITION. The status the block computes: which value of `RESULT` an error is, its payload registers, and their
numeric codes (10_state.md R31 to R33, 60_exceptions.md R190 to R196). `BUSY` is `State.busy`. -/

namespace Sys2Proof.Machine

/-- The value of `RESULT` that records an error (R191 to R195). -/
def resultOf : CmdError → Result
  | .invalidLength => .invalidLength
  | .invalidAddressChar _ _ => .invalidAddressChar
  | .invalidChannelChar _ => .invalidChannelChar
  | .invalidStateChar _ => .invalidStateChar
  | .invalidEncoding => .invalidEncoding

/-- The value of `ERR_CHAR`: the offending character, 0 where the error has no payload (R33). -/
def errCharOf : CmdError → Byte
  | .invalidLength => 0#8
  | .invalidAddressChar c _ => c
  | .invalidChannelChar c => c
  | .invalidStateChar c => c
  | .invalidEncoding => 0#8

/-- The value of `ERR_POS`: the offending position, 0 where the error has no payload (R33). -/
def errPosOf : CmdError → BitVec 3
  | .invalidLength => 0#3
  | .invalidAddressChar _ p => BitVec.ofNat 3 p.val
  | .invalidChannelChar _ => 5#3
  | .invalidStateChar _ => 6#3
  | .invalidEncoding => 0#3

/-- The numeric code of a value of `RESULT`, a rendering; 7 is never written (R196). -/
def Result.code : Result → BitVec 3
  | .none => 0#3
  | .ok => 1#3
  | .invalidLength => 2#3
  | .invalidAddressChar => 3#3
  | .invalidChannelChar => 4#3
  | .invalidStateChar => 5#3
  | .invalidEncoding => 6#3

end Sys2Proof.Machine
end

