-- ==== Sys2Proof/Machine/Ops.lean ====
section
/-! DEFINITION. The shared operations: the two capabilities and the elementary pulse (00_scope.md R10,
42_waveform_transmitter.md R168), the latch of a submission (10_state.md R24), the writes of the parser, and the two
ends of a command: `raise`, the block's one way of taking an error (60_exceptions.md R199), and `completeCommand`
(42_waveform_transmitter.md R173). Nothing is saved on an error and nothing restored after it (R199, R200). -/

namespace Sys2Proof.Machine

/-! ### The capabilities and the elementary pulse -/

/-- `set_output(level)`: the event `Set(level)`, and `TX` (R10, R34). -/
def setOutput (l : Level) (s : State) : State :=
  { s with tx := l, trace := s.trace ++ [.set l] }

/-- `delay(d)`: the event `Delay(d)`, `d` in microseconds (R10). -/
def delay (d : Nat) (s : State) : State :=
  { s with trace := s.trace ++ [.delay d] }

/-- The high half of a pulse: `set_output(HIGH); delay(h * CFG.T_UNIT)`, an exact product (R168, R176). -/
def highHalf (p : Pulse) (s : State) : State :=
  delay (p.high * s.cfg.tUnit) (setOutput .high s)

/-- The low half of a pulse: `set_output(LOW); delay(l * CFG.T_UNIT)` (R168, R176). -/
def lowHalf (p : Pulse) (s : State) : State :=
  delay (p.low * s.cfg.tUnit) (setOutput .low s)

/-- `PULSE(high_count, low_count)` (R168). -/
def pulse (p : Pulse) (s : State) : State :=
  lowHalf p (highHalf p s)

/-- `SEQ <- target`. -/
def setSeq (q : Seq) (s : State) : State :=
  { s with seq := q }

/-! ### Submission and the writes of the parser -/

/-- The latch at submission: `LEN_OK`, and `CMD` where the length suffices; `CMD` is unspecified otherwise, a free
value (R24); then `SEQ <- PARSE` (R118). `RESULT` keeps its value until this command ends (R32). -/
def latchCommand (bs : List Byte) (s : State) : State :=
  match firstSeven bs with
  | some cmd => { s with cmd := cmd, lenOk := true, seq := .parse }
  | none =>
    { s with cmd := Config.freeCmd s.draws, lenOk := false, seq := .parse, draws := s.draws + 1 }

/-- Step 1 passed: `ADDR[i] <- CMD[i]` (R25 (2), R112). -/
def writeAddr (a : AddrChars) (s : State) : State :=
  { s with addr := a }

/-- Step 1 failed: `ADDR` holds unspecified address characters, a free value (R25 (3)). -/
def spoilAddr (s : State) : State :=
  { s with addr := addrOfBits (Config.freeAddr s.draws), draws := s.draws + 1 }

/-- Steps 2 and 3 passed: `CHAN` and `STATE` (R113, R114). -/
def writeFields (c : BitVec 3) (on : Bool) (s : State) : State :=
  { s with chan := c, swState := on }

/-- The encoder returned a codeword: `CW <- r; CW_OK <- 1` (R118). -/
def writeCw (cw : Codeword) (s : State) : State :=
  { s with cw := cw, cwOk := true }

/-! ### The end of a command -/

/-- What a command's end leaves unspecified, each a free value: `CMD`, `LEN_OK`, `CHAN`, `STATE`, `CW`, `CW_OK`
(R29, R41). -/
def dropTransients (s : State) : State :=
  { s with
    cmd := Config.freeCmd s.draws, lenOk := Config.freeLenOk s.draws, chan := Config.freeChan s.draws,
    swState := Config.freeState s.draws, cw := Config.freeCw s.draws, cwOk := Config.freeCwOk s.draws,
    draws := s.draws + 1 }

/-- The command ends: `RESULT`, `ERR_CHAR`, `ERR_POS` are written together, `SEQ <- IDLE` and so `BUSY` falls
(R32, R33, R242). -/
def endCommand (r : Result) (c : Byte) (p : BitVec 3) (s : State) : State :=
  { dropTransients s with result := r, errChar := c, errPos := p, seq := .idle }

/-- `raise E(c, p)`: the error is recorded and the rest of the command abandoned (R199). -/
def raise (e : CmdError) (s : State) : State :=
  endCommand (resultOf e) (errCharOf e) (errPosOf e) s

/-- The last pulse has been issued: `RESULT <- OK; ERR_CHAR <- 0; ERR_POS <- 0; SEQ <- IDLE` (R118, R173). -/
def completeCommand (s : State) : State :=
  endCommand .ok 0#8 0#3 s

end Sys2Proof.Machine
end

