-- ==== Sys2Proof/Machine/HostMoves.lean ====
section
/-! DEFINITION. The host's moves (70_reset_and_hazards.md R243): the effect of each when it is legal, the refusal the
spec asks for when it is not. -/

namespace Sys2Proof.Machine

/-- Reset (R230): every piece of state at its reset value; the model's own fields `host` and `draws` go on. Refused
during a command (R243). -/
def hostReset (s : State) : StepOutcome :=
  if s.busy then .refused .resetWhileBusy
  else .next { State.reset with host := s.host, draws := s.draws }

/-- Write `CFG.T_UNIT`: in `INIT` only, at least 1 (R21, R235). -/
def hostWriteTUnit (us : Nat) (s : State) : StepOutcome :=
  if s.phase ≠ .init then .refused .configWrongPhase
  else if us = 0 then .refused .zeroTUnit
  else .next { s with cfg := { s.cfg with tUnit := us } }

/-- Write `CFG.TX_PIN`: in `INIT` only (R22, R235). -/
def hostWriteTxPin (pin : PinId) (s : State) : StepOutcome :=
  if s.phase ≠ .init then .refused .configWrongPhase
  else .next { s with cfg := { s.cfg with txPin := some pin } }

/-- Write `CFG.EN_PIN`: in `INIT` only (R22, R235). -/
def hostWriteEnPin (pin : PinId) (s : State) : StepOutcome :=
  if s.phase ≠ .init then .refused .configWrongPhase
  else .next { s with cfg := { s.cfg with enPin := some pin } }

/-- Boot (R231): pins given, distinct and acquired; the output pin is `LOW`, the enable pin `HIGH`, the phase
`ACTIVE`; no trace event (R35, R169). A failed acquisition is refused (R232). -/
def hostBoot (acquired : Bool) (s : State) : StepOutcome :=
  if s.phase ≠ .init then .refused .bootWrongPhase
  else
    match s.cfg.txPin, s.cfg.enPin with
    | some t, some e =>
      if t = e then .refused .pinsNotDistinct
      else if acquired then .next { s with tx := .low, en := .high, phase := .active }
      else .refused .pinsNotAcquired
    | none, _ => .refused .pinsNotGiven
    | some _, none => .refused .pinsNotGiven

/-- Submit a command: in `ACTIVE` and not `BUSY` (R234, R236); the command is latched (R24). -/
def hostSubmit (bs : List Byte) (s : State) : StepOutcome :=
  if s.phase ≠ .active then .refused .submitWrongPhase
  else if s.busy then .refused .submitWhileBusy
  else .next (latchCommand bs s)

/-- Read the status registers: no side effect (R243). What the host gets back is the fields themselves. -/
def hostReadStatus (s : State) : StepOutcome :=
  .next s

/-- Observe the pin or the trace: no side effect (R243). -/
def hostObservePin (s : State) : StepOutcome :=
  .next s

/-- Shutdown: in `ACTIVE` and not `BUSY`; the enable pin `LOW`, the phase `STOPPED` (R233). -/
def hostShutdown (s : State) : StepOutcome :=
  if s.phase ≠ .active then .refused .shutdownWrongPhase
  else if s.busy then .refused .shutdownWhileBusy
  else .next { s with en := .low, phase := .stopped }

/-- One move of the host. -/
def hostMove (m : HostMove) (s : State) : StepOutcome :=
  match m with
  | .reset => hostReset s
  | .writeTUnit us => hostWriteTUnit us s
  | .writeTxPin pin => hostWriteTxPin pin s
  | .writeEnPin pin => hostWriteEnPin pin s
  | .boot acquired => hostBoot acquired s
  | .submit bs => hostSubmit bs s
  | .readStatus => hostReadStatus s
  | .observePin => hostObservePin s
  | .shutdown => hostShutdown s

end Sys2Proof.Machine
end

