-- ==== Sys2Proof/Machine/Encoder.lean ====
section
/-! DEFINITION. The Codeword Encoder, `ENCODE` (41_codeword_encoder.md R140 to R150): a pure function of the address
characters, the channel and the state. -/

namespace Sys2Proof.Machine

/-- The range the encoder accepts, 1 to 5 (R141); channel 0 is refused although `CHROM` has a row 0 (R149). -/
def channelInRange (c : BitVec 3) : Bool :=
  decide (1 ≤ c.toNat) && decide (c.toNat ≤ 5)

/-- The address part, `CW[0..5)`: each character through `ADDRMAP`, in order; nothing if a character has no row
(R143). -/
def encodeAddr (a : AddrChars) : Option (Vector Symbol 5) := do
  let y0 ← addrMap a[0]
  let y1 ← addrMap a[1]
  let y2 ← addrMap a[2]
  let y3 ← addrMap a[3]
  let y4 ← addrMap a[4]
  return #v[y0, y1, y2, y3, y4]

/-- The codeword in order: address part, channel row, state suffix (R59, R144, R145). -/
def joinCodeword (y row : Vector Symbol 5) (suf : Vector Symbol 2) : Codeword :=
  #v[y[0], y[1], y[2], y[3], y[4], row[0], row[1], row[2], row[3], row[4], suf[0], suf[1]]

/-- `ENCODE(address, channel, state)`; `none` is the spec's `invalid` (R146). -/
def encodeCodeword (a : AddrChars) (c : BitVec 3) (on : Bool) : Option Codeword :=
  if channelInRange c then do
    let y ← encodeAddr a
    let row ← chRom c
    return joinCodeword y row (stRom on)
  else none

end Sys2Proof.Machine
end

