-- ==== Sys2Proof/Machine/Parser.lean ====
section
/-! DEFINITION. The Command Parser and the meanings of the eight commands (40_command_parser.md R110 to R127). A
command's meaning is the one parsing step of a command that passed validation: its fields are written, the
codeword is encoded, and the sequencer enters the transmission (R118, R173 "Entry"), whose 500 steps follow one by
one (R244). A command that fails validation is no instruction: `rejectCommand` ends it. -/

namespace Sys2Proof.Machine

/-- The parsing step of a command with valid fields, from step 1 of R118 to the call of `TRANSMIT`. The branch of an
encoder that returns `invalid` raises `InvalidEncoding` (R117); no decoded command takes it. -/
def acceptCommand (l : Letter) (on : Bool) (a : AddrChars) (s : State) : State :=
  let s1 := writeFields (channelOf l) on (writeAddr a s)
  match encodeCodeword s1.addr s1.chan s1.swState with
  | some cw => setSeq (Seq.repStart 0) (writeCw cw s1)
  | none => raise .invalidEncoding { s1 with cwOk := false }

/-- The parsing step of a command that fails validation: what `ADDR` then holds depends on the step that failed
(R25), and the error is raised (R111 to R114, R199). -/
def rejectCommand (e : CmdError) (s : State) : State :=
  match e with
  | .invalidLength => raise e s
  | .invalidAddressChar _ _ => raise e (spoilAddr s)
  | .invalidChannelChar _ => raise e (writeAddr (addrField s.cmd) s)
  | .invalidStateChar _ => raise e (writeAddr (addrField s.cmd) s)
  | .invalidEncoding => raise e s

/-- `SW_A_OFF` (R120). -/
def execSwAOff (a : AddrChars) (s : State) : StepOutcome :=
  .next (acceptCommand .a false a s)

/-- `SW_A_ON` (R121). -/
def execSwAOn (a : AddrChars) (s : State) : StepOutcome :=
  .next (acceptCommand .a true a s)

/-- `SW_B_OFF` (R122). -/
def execSwBOff (a : AddrChars) (s : State) : StepOutcome :=
  .next (acceptCommand .b false a s)

/-- `SW_B_ON` (R123). -/
def execSwBOn (a : AddrChars) (s : State) : StepOutcome :=
  .next (acceptCommand .b true a s)

/-- `SW_C_OFF` (R124). -/
def execSwCOff (a : AddrChars) (s : State) : StepOutcome :=
  .next (acceptCommand .c false a s)

/-- `SW_C_ON` (R125). -/
def execSwCOn (a : AddrChars) (s : State) : StepOutcome :=
  .next (acceptCommand .c true a s)

/-- `SW_D_OFF` (R126). -/
def execSwDOff (a : AddrChars) (s : State) : StepOutcome :=
  .next (acceptCommand .d false a s)

/-- `SW_D_ON` (R127). -/
def execSwDOn (a : AddrChars) (s : State) : StepOutcome :=
  .next (acceptCommand .d true a s)

end Sys2Proof.Machine
end

