-- ==== Sys2Proof/Machine/Transmitter.lean ====
section
/-! DEFINITION. The Waveform Transmitter's sequencer steps (42_waveform_transmitter.md R173): the meanings of the four
symbol operations (R163 to R166) and the sync pulse (R167). A step emits the half-pulse `SEQ` names, one
`set_output` and one `delay`; the four steps of a symbol are its two pulses. -/

namespace Sys2Proof.Machine

/-- One symbol: its two pulses, or nothing (R163 to R166, R172). -/
def sendSymbol (y : Symbol) (s : State) : State :=
  match pulseRom y with
  | some row => pulse row[1] (pulse row[0] s)
  | none => s

/-- The symbol `y` at the position `SEQ` names (R173): one half-pulse of its row of `PULSEROM`, or, where it has no
row, no event and the next symbol. Where `SEQ` names no data symbol there is no position to step through: the symbol
is sent whole, as its own rule has it (R163 to R166), and `SEQ` stays. No step of the machine comes there
(assumption 8). -/
def stepSymbol (y : Symbol) (s : State) : State :=
  match s.seq with
  | .tx rep (.data sym pul) half =>
    match pulseRom y with
    | none => setSeq (Seq.afterSymbol rep sym) s
    | some row =>
      match half with
      | .h => setSeq (.tx rep (.data sym pul) .l) (highHalf row[pul] s)
      | .l => setSeq (Seq.afterPulse rep sym pul) (lowHalf row[pul] s)
  | .tx _ .sync _ => sendSymbol y s
  | .parse => sendSymbol y s
  | .idle => sendSymbol y s

/-- `TX0`: pulses (1, 3) and (1, 3) (R163). -/
def execTx0 (s : State) : StepOutcome :=
  .next (stepSymbol .s0 s)

/-- `TX1`: pulses (3, 1) and (3, 1) (R164). -/
def execTx1 (s : State) : StepOutcome :=
  .next (stepSymbol .s1 s)

/-- `TXF`: pulses (1, 3) and (3, 1), short high first (R165). -/
def execTxF (s : State) : StepOutcome :=
  .next (stepSymbol .sf s)

/-- `TXNOP`: no event, the pin keeps its level, the next symbol or the sync pulse follows at once (R166). -/
def execTxNop (s : State) : StepOutcome :=
  .next (stepSymbol .other s)

/-- The sync pulse's step (R167, R173): after its low half the next repetition starts, or the command is over. -/
def syncHalf (rep : Fin 10) (half : Half) (s : State) : State :=
  match half with
  | .h => setSeq (.tx rep .sync .l) (highHalf syncRom s)
  | .l =>
    match nextRep rep with
    | some r => setSeq (Seq.repStart r) (lowHalf syncRom s)
    | none => completeCommand (lowHalf syncRom s)

end Sys2Proof.Machine
end

