-- ==== Sys2Proof/Machine/Dispatch.lean ====
section
/-! DEFINITION. The dispatch: one arm per instruction, each one call of its meaning. -/

namespace Sys2Proof.Machine

def exec (i : Instr) (s : State) : Host.Outcome State Fault Refusal :=
  match i with
  | .swAOff a => Sys2Proof.Machine.execSwAOff a s
  | .swAOn a => Sys2Proof.Machine.execSwAOn a s
  | .swBOff a => Sys2Proof.Machine.execSwBOff a s
  | .swBOn a => Sys2Proof.Machine.execSwBOn a s
  | .swCOff a => Sys2Proof.Machine.execSwCOff a s
  | .swCOn a => Sys2Proof.Machine.execSwCOn a s
  | .swDOff a => Sys2Proof.Machine.execSwDOff a s
  | .swDOn a => Sys2Proof.Machine.execSwDOn a s
  | .tx0 => Sys2Proof.Machine.execTx0 s
  | .tx1 => Sys2Proof.Machine.execTx1 s
  | .txF => Sys2Proof.Machine.execTxF s
  | .txNop => Sys2Proof.Machine.execTxNop s

end Sys2Proof.Machine
end

