-- ==== Sys2Proof/Machine/Sequencer.lean ====
section
/-! DEFINITION. What the block does next: the sequencer position selects the instruction, as a program counter would
(10_state.md R30, 42_waveform_transmitter.md R173). At `PARSE` it is the latched command, at a data symbol the
symbol of the codeword; the sync pulse has no encoding (30_encoding.md R88). -/

namespace Sys2Proof.Machine

/-- What `SEQ` names. -/
inductive Fetched where
  /-- No command in progress. -/
  | nothing
  /-- The latched command failed validation. -/
  | reject (e : CmdError)
  /-- The half of the sync pulse to be emitted. -/
  | sync (rep : Fin 10) (half : Half)
  /-- An instruction. -/
  | instr (i : Instr)
deriving DecidableEq, Repr

/-- Read what `SEQ` names (R30, R173). -/
def fetch (s : State) : Fetched :=
  match s.seq with
  | .idle => .nothing
  | .parse =>
    match decodeLatched s.lenOk s.cmd with
    | .ok i => .instr i
    | .error e => .reject e
  | .tx _ (.data sym _) _ => .instr (decodeSymbol s.cw[sym])
  | .tx rep .sync half => .sync rep half

/-- One step of the block's own. Idle, it waits: the state stays as it is (R210, R230; assumption 22). -/
def blockStep (s : State) : StepOutcome :=
  match fetch s with
  | .nothing => .next s
  | .reject e => .next (rejectCommand e s)
  | .sync rep half => .next (syncHalf rep half s)
  | .instr i => exec i s

/-- The state in which the block's next step runs the instruction whose table word is given: a command is latched
(as a submission of exactly its seven characters would latch it, R24), a symbol is put where the transmission's
first step reads it, `CW[0]` with `SEQ = TX(0, 0, 0, H)`. No host turn comes before it. -/
def placeTableWord (s : State) (nbits w : Nat) : State :=
  match tableEncoding nbits w with
  | some (.inl bs) => latchCommand bs { s with host := [] }
  | some (.inr code) =>
    { s with host := [], cw := s.cw.set 0 (Symbol.ofCode code), seq := Seq.repStart 0 }
  | none => s

end Sys2Proof.Machine
end

