-- ==== Sys2Proof/Machine/Step.lean ====
section
/-! DEFINITION. One step of the machine: the host's next turn, or a step of the block's own. A move of the host lands
between two steps of the block, at any point of a transmission (95_test_vectors.md P4; assumption 2). -/

namespace Sys2Proof.Machine

/-- One step. With no turn left in `host` the host does nothing any more and the block goes on alone. -/
def step (s : State) : Host.Outcome State Fault Refusal :=
  match s.host with
  | [] => blockStep s
  | .wait :: rest => blockStep { s with host := rest }
  | .act m :: rest => hostMove m { s with host := rest }

/-- `s` with the instruction of a table word placed so that the next step runs exactly it (assumption 3). -/
def State.withFetchWord (s : State) (nbits w : Nat) : State :=
  placeTableWord s nbits w

end Sys2Proof.Machine
end

