-- ==== Sys2Proof/Machine/BigStep.lean ====
section
/-! DEFINITION. The big-step form of the operations, as the pseudocode of the spec writes them: one repetition
(42_waveform_transmitter.md R162), `TRANSMIT` (R172) and `parse_and_send`
(40_command_parser.md R118). The machine itself takes the small steps of R173; the two forms are for a proof to
compare. -/

namespace Sys2Proof.Machine

/-- How many steps of the sequencer a symbol takes: its four half-pulses, or the one step that passes over a symbol
with no row (R173). -/
def symbolSteps (y : Symbol) : Nat :=
  match pulseRom y with
  | some _ => 4
  | none => 1

/-- How many steps of the sequencer a repetition takes: its symbols and the two halves of the sync pulse (R173). -/
def repetitionSteps (cw : Codeword) : Nat :=
  (cw.toList.map symbolSteps).sum + 2

/-- The symbols of a list, in order (R162). -/
def sendSymbols : List Symbol → State → State
  | [], s => s
  | y :: ys, s => sendSymbols ys (sendSymbol y s)

/-- One repetition: the twelve symbols in order, then the sync pulse (R162). -/
def sendRepetition (cw : Codeword) (s : State) : State :=
  pulse syncRom (sendSymbols cw.toList s)

/-- `n` repetitions, one directly after the other (R161). -/
def sendRepetitions (cw : Codeword) : Nat → State → State
  | 0, s => s
  | n + 1, s => sendRepetitions cw n (sendRepetition cw s)

/-- `TRANSMIT(CW[0..11])` (R172). -/
def transmit (cw : Codeword) (s : State) : State :=
  sendRepetitions cw Config.nRepeat s

/-- `parse_and_send(cmd)`, line by line (R118). -/
def parseAndSend (cmd : List Byte) (s : State) : State :=
  let s := latchCommand cmd s
  if !s.lenOk then raise .invalidLength s
  else
    match firstBadAddr (addrField s.cmd) with
    | some p => raise (.invalidAddressChar (addrField s.cmd)[p] p) (spoilAddr s)
    | none =>
      let s := writeAddr (addrField s.cmd) s
      match decodeLetter s.cmd[5] with
      | none => raise (.invalidChannelChar s.cmd[5]) s
      | some l =>
        match decodeState s.cmd[6] with
        | none => raise (.invalidStateChar s.cmd[6]) s
        | some on =>
          let s := writeFields (channelOf l) on s
          match encodeCodeword s.addr s.chan s.swState with
          | none => raise .invalidEncoding { s with cwOk := false }
          | some cw => completeCommand (transmit cw (writeCw cw s))

end Sys2Proof.Machine
end

