-- ==== Sys2Proof/Machine/Waveform.lean ====
section
/-! DEFINITION. The views of a trace the spec speaks of: pulse lists, event lists, level segments, counts and sums
(00_scope.md R10, 42_waveform_transmitter.md R174, R175, R177). They are functions of a codeword or of a trace and
no part of the machine's step. -/

namespace Sys2Proof.Machine

/-- The pulses of a symbol (R54). -/
def symbolPulses (y : Symbol) : List Pulse :=
  match pulseRom y with
  | some row => [row[0], row[1]]
  | none => []

/-- The pulse list of one repetition (R162). -/
def repetitionPulses (cw : Codeword) : List Pulse :=
  cw.toList.flatMap symbolPulses ++ [syncRom]

/-- The pulse list of a transmission: `N_REPEAT` repetitions (R161). -/
def transmissionPulses (cw : Codeword) : List Pulse :=
  (List.replicate Config.nRepeat (repetitionPulses cw)).flatten

/-- The four trace events of a pulse (R168), `T` being `CFG.T_UNIT`. -/
def pulseEvents (T : Nat) (p : Pulse) : List Event :=
  [.set .high, .delay (p.high * T), .set .low, .delay (p.low * T)]

/-- The trace events of a symbol (R163 to R166). -/
def symbolEvents (T : Nat) (y : Symbol) : List Event :=
  (symbolPulses y).flatMap (pulseEvents T)

/-- The trace events of a transmission (R172, R175). -/
def transmissionEvents (T : Nat) (cw : Codeword) : List Event :=
  (transmissionPulses cw).flatMap (pulseEvents T)

/-- The waveform: a segment `(HIGH, h*T)` and a segment `(LOW, l*T)` for each pulse (R174). -/
def segments (T : Nat) (ps : List Pulse) : List (Level × Nat) :=
  ps.flatMap fun p => [(.high, p.high * T), (.low, p.low * T)]

/-- The microseconds an event takes: the argument of a `Delay` (R241). -/
def eventUs : Event → Nat
  | .set _ => 0
  | .delay d => d

/-- The sum of the delays of a trace (R177). -/
def delaySum (es : List Event) : Nat :=
  (es.map eventUs).sum

/-- How many `Set(level)` events a trace has (R175). -/
def setCount (l : Level) (es : List Event) : Nat :=
  es.count (.set l)

/-- Whether an event is a `Delay`. -/
def isDelay : Event → Bool
  | .set _ => false
  | .delay _ => true

/-- How many `Delay` events a trace has (R175). -/
def delayCount (es : List Event) : Nat :=
  es.countP isDelay

/-- The timing units of a pulse list (R175). -/
def unitSum (ps : List Pulse) : Nat :=
  (ps.map fun p => p.high + p.low).sum

/-- The timing units a pulse list holds the pin high (R175). -/
def highUnits (ps : List Pulse) : Nat :=
  (ps.map fun p => p.high).sum

/-- The level the pin is left at by a trace that starts at level `l` (R34). -/
def levelAfter : Level → List Event → Level
  | l, [] => l
  | _, .set l :: es => levelAfter l es
  | l, .delay _ :: es => levelAfter l es

end Sys2Proof.Machine
end

