-- ==== Sys2Proof/Safety.lean ====
section
/-! DEFINITION. What counts as a safe run: a step that answers a next state; the host's moves that are legal
(70_reset_and_hazards.md R243); and the invariant of the block, the conditions that hold in every state a legal run
from reset comes to (10_state.md R23 to R35). -/

namespace Sys2Proof.Machine

/-- The step from `s` answers a next state. -/
def SafeStep (s : State) : Prop :=
  ∃ t, step s = .next t

/-- So many steps of the machine, stopping at the first fault or refusal. -/
def runSteps : Nat → State → StepOutcome
  | 0, s => .next s
  | n + 1, s =>
    match step s with
    | .next t => runSteps n t
    | .fault r => .fault r
    | .refused r => .refused r

/-- Both pins are given and name different pins (R22, R231, R238). -/
def pinsReady (c : Cfg) : Bool :=
  match c.txPin, c.enPin with
  | some t, some e => t != e
  | none, _ => false
  | some _, none => false

/-- The column "legal when" of the table of R243, with the conditions on what the host hands over. -/
def HostMove.legal (m : HostMove) (s : State) : Bool :=
  match m with
  | .reset => !s.busy
  | .writeTUnit us => s.phase == .init && decide (1 ≤ us)
  | .writeTxPin _ => s.phase == .init
  | .writeEnPin _ => s.phase == .init
  | .boot acquired => s.phase == .init && pinsReady s.cfg && acquired
  | .submit _ => s.phase == .active && !s.busy
  | .readStatus => true
  | .observePin => true
  | .shutdown => s.phase == .active && !s.busy

/-- The host's next turn is legal: it waits, has no turn left, or makes a legal move (R243). -/
def State.hostLegal (s : State) : Bool :=
  match s.host with
  | [] => true
  | .wait :: _ => true
  | .act m :: _ => m.legal s

/-- The level of the pin that a sequencer position finds: high only between the two halves of a pulse (R34, R168). -/
def Seq.pinLevel : Seq → Level
  | .idle => .low
  | .parse => .low
  | .tx _ _ .h => .low
  | .tx _ _ .l => .high

/-- `SEQ` is inside a transmission (R30). -/
def Seq.isTx : Seq → Bool
  | .idle => false
  | .parse => false
  | .tx _ _ _ => true

/-- `ERR_CHAR` and `ERR_POS` agree with `RESULT` (R33): zero where the result has no payload, an offending character
and its position where it has one. -/
def State.payloadAgrees (s : State) : Bool :=
  match s.result with
  | .none => s.errChar == 0#8 && s.errPos == 0#3
  | .ok => s.errChar == 0#8 && s.errPos == 0#3
  | .invalidLength => s.errChar == 0#8 && s.errPos == 0#3
  | .invalidAddressChar => !isAddrChar s.errChar && decide (s.errPos.toNat ≤ 4)
  | .invalidChannelChar => (decodeLetter s.errChar).isNone && s.errPos == 5#3
  | .invalidStateChar => (decodeState s.errChar).isNone && s.errPos == 6#3
  | .invalidEncoding => s.errChar == 0#8 && s.errPos == 0#3

/-- The invariant of the block. -/
structure Inv (s : State) : Prop where
  /-- `CFG.T_UNIT` is at least 1 (R21). -/
  unit_pos : 1 ≤ s.cfg.tUnit
  /-- In `ACTIVE` both pins are given and different (R231). -/
  pins_ready : s.phase = .active → pinsReady s.cfg = true
  /-- The enable pin is high exactly in `ACTIVE` (R35). -/
  enable_level : s.en = if s.phase = .active then .high else .low
  /-- A command is in progress only in `ACTIVE` (R236). -/
  busy_active : s.busy = true → s.phase = .active
  /-- The pin has the level the position finds; it is low whenever the block is not busy (R34). -/
  pin_level : s.tx = s.seq.pinLevel
  /-- The pin shows what the trace left it at (R10, R34). -/
  pin_trace : s.tx = levelAfter .low s.trace
  /-- `ADDR` holds address characters (R25). -/
  addr_binary : wfAddr s.addr = true
  /-- During a transmission `CW` is the codeword of the command's fields, and `CW_OK` is 1 (R28). -/
  codeword : s.seq.isTx = true →
    s.cwOk = true ∧ encodeCodeword s.addr s.chan s.swState = some s.cw
  /-- The payload registers agree with `RESULT` (R33). -/
  payload : s.payloadAgrees = true
  /-- `InvalidEncoding` is never recorded (R117). -/
  no_encoding_error : s.result ≠ .invalidEncoding

end Sys2Proof.Machine
end

