-- ==== Sys2Proof/Certificates/Slice0/Obligations.lean ====
section
/-! DEFINITION. The statements about the block, for the provers. Each docstring names the rule of the spec it
formalises. Three groups of words used below come first; everything else is the model's own vocabulary. -/

namespace Sys2Proof.Claims

open Sys2Proof.Machine

/-- A codeword: the map `m` of five address characters, then seven given symbols (40_command_parser.md section 2). -/
def codewordOf (a : AddrChars) (tail : Vector Symbol 7) : Codeword :=
  #v[addrSymbol a[0], addrSymbol a[1], addrSymbol a[2], addrSymbol a[3], addrSymbol a[4],
    tail[0], tail[1], tail[2], tail[3], tail[4], tail[5], tail[6]]

/-- The tails of the eight commands, as the table of R87 spells them. -/
def tailA0 : Vector Symbol 7 := #v[.s0, .sf, .sf, .sf, .sf, .sf, .s0]
/-- `"0FFFF0F"`. -/
def tailA1 : Vector Symbol 7 := #v[.s0, .sf, .sf, .sf, .sf, .s0, .sf]
/-- `"F0FFFF0"`. -/
def tailB0 : Vector Symbol 7 := #v[.sf, .s0, .sf, .sf, .sf, .sf, .s0]
/-- `"F0FFF0F"`. -/
def tailB1 : Vector Symbol 7 := #v[.sf, .s0, .sf, .sf, .sf, .s0, .sf]
/-- `"FF0FFF0"`. -/
def tailC0 : Vector Symbol 7 := #v[.sf, .sf, .s0, .sf, .sf, .sf, .s0]
/-- `"FF0FF0F"`. -/
def tailC1 : Vector Symbol 7 := #v[.sf, .sf, .s0, .sf, .sf, .s0, .sf]
/-- `"FFF0FF0"`. -/
def tailD0 : Vector Symbol 7 := #v[.sf, .sf, .sf, .s0, .sf, .sf, .s0]
/-- `"FFF0F0F"`. -/
def tailD1 : Vector Symbol 7 := #v[.sf, .sf, .sf, .s0, .sf, .s0, .sf]

/-- The parsing step of a command from any state: the five fields and `CW_OK` as given, `SEQ` at the first half-pulse
of the transmission, everything else as it was. -/
def Starts (i : Instr) (a : AddrChars) (c : BitVec 3) (on : Bool) (tail : Vector Symbol 7) : Prop :=
  ∀ s : State, exec i s = .next
    { s with addr := a, chan := c, swState := on, cw := codewordOf a tail, cwOk := true,
             seq := .tx 0 (.data 0 0) .h }

/-- A whole command, undisturbed by the host: its string (with the last two characters `x`, `y`) decodes to it and
matches its row `m` of the opcode map, its parsing step answers a next state, and 500 steps later it is over: `RESULT`
is `OK`, the payload is zero, the block is idle, the pin low, `ADDR` the command's address, the trace extended by the
ten repetitions of the codeword, and the configuration, the phase and the enable pin are untouched. -/
def Switches (i : Instr) (a : AddrChars) (x y : Byte) (m : BitVec 56) (c : BitVec 3) (on : Bool)
    (tail : Vector Symbol 7) : Prop :=
  decodeBytes (a.toList ++ [x, y]) = .ok i ∧
  packCmd56 #v[a[0], a[1], a[2], a[3], a[4], x, y] &&& 0xFEFEFEFEFEFFFF#56 = m ∧
  ∀ s : State, s.host = [] → ∃ t u : State,
    exec i s = .next t ∧ t.chan = c ∧ t.swState = on ∧ t.cw = codewordOf a tail ∧
    runSteps 500 t = .next u ∧
    u.result = .ok ∧ u.errChar = 0#8 ∧ u.errPos = 0#3 ∧ u.seq = .idle ∧ u.busy = false ∧
    u.addr = a ∧ u.tx = .low ∧ u.cfg = s.cfg ∧ u.phase = s.phase ∧ u.en = s.en ∧ u.host = [] ∧
    u.trace = s.trace ++ transmissionEvents s.cfg.tUnit (codewordOf a tail)

/-- A submission that the host may make, alone: `ACTIVE`, not `BUSY`, and nothing follows it (R243). That the host's
turns are a list, and that a submission is one step of the machine, is the model's choice (assumption 2). -/
def Submits (s : State) (bs : List Byte) : Prop :=
  s.phase = .active ∧ s.busy = false ∧ s.host = [.act (.submit bs)]

/-- The command was rejected: the status registers hold the error, the block is idle, and the trace, the pin, the
configuration, the phase and the enable pin are as they were (R41, R197, R199). -/
def Rejected (s t : State) (r : Result) (c : Byte) (p : BitVec 3) : Prop :=
  t.result = r ∧ t.errChar = c ∧ t.errPos = p ∧ t.seq = .idle ∧ t.busy = false ∧
  t.trace = s.trace ∧ t.tx = s.tx ∧ t.cfg = s.cfg ∧ t.phase = s.phase ∧ t.en = s.en

/-- The position after the data symbol `sym`: the next symbol's first half-pulse, or the sync slot after the twelfth
(R173). -/
def placeAfter (rep : Fin 10) (sym : Fin 12) : Seq :=
  if h : sym.val + 1 < 12 then .tx rep (.data ⟨sym.val + 1, h⟩ 0) .h else .tx rep .sync .h

/-- The eight events of two pulses `(h0, l0)` and `(h1, l1)`, `T` being `CFG.T_UNIT` (R163 to R165, R168). -/
def twoPulses (T h0 l0 h1 l1 : Nat) : List Event :=
  [.set .high, .delay (h0 * T), .set .low, .delay (l0 * T),
   .set .high, .delay (h1 * T), .set .low, .delay (l1 * T)]

/-- The four half-pulses of a symbol operation, one step each, and the four together at a symbol `y` of the codeword:
the pulses `(h0, l0)` and `(h1, l1)` (R163 to R165, R173). Nothing but `TX`, the trace and `SEQ` changes. -/
def SendsTwoPulses (i : Instr) (y : Symbol) (h0 l0 h1 l1 : Nat) : Prop :=
  ∀ (s : State) (rep : Fin 10) (sym : Fin 12),
    (s.seq = .tx rep (.data sym 0) .h → exec i s = .next
      { s with tx := .high, trace := s.trace ++ [.set .high, .delay (h0 * s.cfg.tUnit)],
               seq := .tx rep (.data sym 0) .l }) ∧
    (s.seq = .tx rep (.data sym 0) .l → exec i s = .next
      { s with tx := .low, trace := s.trace ++ [.set .low, .delay (l0 * s.cfg.tUnit)],
               seq := .tx rep (.data sym 1) .h }) ∧
    (s.seq = .tx rep (.data sym 1) .h → exec i s = .next
      { s with tx := .high, trace := s.trace ++ [.set .high, .delay (h1 * s.cfg.tUnit)],
               seq := .tx rep (.data sym 1) .l }) ∧
    (s.seq = .tx rep (.data sym 1) .l → exec i s = .next
      { s with tx := .low, trace := s.trace ++ [.set .low, .delay (l1 * s.cfg.tUnit)],
               seq := placeAfter rep sym }) ∧
    (s.seq = .tx rep (.data sym 0) .h → s.cw[sym] = y → s.host = [] → runSteps 4 s = .next
      { s with tx := .low,
               trace := s.trace ++ twoPulses s.cfg.tUnit h0 l0 h1 l1,
               seq := placeAfter rep sym })

/-- The symbol operations. -/
def IsSymbolOp (i : Instr) : Prop :=
  i = .tx0 ∨ i = .tx1 ∨ i = .txF ∨ i = .txNop

/-- The turn at `s` is the block's, and `u` is `s` with that turn taken from the host's list. -/
def BlockTurn (s u : State) : Prop :=
  (s.host = [] ∧ u = s) ∨ ∃ rest, s.host = .wait :: rest ∧ u = { s with host := rest }

/-- What a command of unit duration `T` adds to the trace: its trace from reset, where the trace is empty. -/
def commandTrace (T : Nat) (bs : List Byte) : List Event :=
  (parseAndSend bs { State.reset with cfg := { State.reset.cfg with tUnit := T } }).trace

end Sys2Proof.Claims

open Sys2Proof Sys2Proof.Machine Sys2Proof.Claims

/-! ### Encoding -/

/-- R86, R87, R88, R95: every well-formed instruction is read back from its own encoding. -/
def Obligations.EncodeThenDecodeIsIdentity : Prop :=
  ∀ i : Instr, i.wf = true → decode (encode i) = .ok i

/-- R89, R93: the accepted strings are exactly the commands followed by anything. -/
def Obligations.AcceptedStringsAreTheCommands : Prop :=
  ∀ (bs : List Byte) (i : Instr), decodeBytes bs = .ok i ↔
    ∃ (l : Letter) (on : Bool) (a : AddrChars) (t : List Byte),
      wfAddr a = true ∧ i = commandInstr l on a ∧ bs = (commandChars l on a).toList ++ t

/-- R86, R87: a packed word is an instance of a mnemonic exactly when `(w & mask) = match`, and no word matches two
rows. -/
def Obligations.CommandWordIsInstanceByMask : Prop :=
  (∀ (w : BitVec 56) (l : Letter) (on : Bool),
    (∃ a, decodeCommand (unpackCmd56 w) = .ok (commandInstr l on a)) ↔
      w &&& commandMask = commandMatch l on) ∧
  ∀ (w : BitVec 56) (l l' : Letter) (on on' : Bool),
    w &&& commandMask = commandMatch l on → w &&& commandMask = commandMatch l' on' →
      l = l' ∧ on = on'

/-- R60, R86, R88: the packed forms `CMD56` and `CW24` lose nothing. -/
def Obligations.PackedWordsLoseNothing : Prop :=
  (∀ cmd : Vector Byte 7, unpackCmd56 (packCmd56 cmd) = cmd) ∧
  (∀ w : BitVec 56, packCmd56 (unpackCmd56 w) = w) ∧
  ∀ cw cw' : Codeword, packCw24 cw = packCw24 cw' → cw = cw'

/-- R86, R87, R88: words written out from the spec's tables decode to what they stand for; 'E' does not (R90). A symbol
code has two bits (R88); that a table word of eight bits is read as the code in its low two bits is the model's reading
(assumption 16, DEDUCED). -/
def Obligations.WrittenWordsDecode : Prop :=
  decodeTableWord 56 0x31313131314130 =
    some (.swAOff #v[Byte.char1, Byte.char1, Byte.char1, Byte.char1, Byte.char1]) ∧
  decodeTableWord 56 0x31303130314331 =
    some (.swCOn #v[Byte.char1, Byte.char0, Byte.char1, Byte.char0, Byte.char1]) ∧
  decodeTableWord 56 0x31313131314531 = none ∧
  decodeTableWord 8 0b00 = some .tx0 ∧ decodeTableWord 8 0b01 = some .tx1 ∧
  decodeTableWord 8 0b10 = some .txF ∧ decodeTableWord 8 0b11 = some .txNop

/-- R85: trailing characters change neither the decoding, nor what is latched, nor what the command does. -/
def Obligations.TrailingBytesIgnored : Prop :=
  ∀ (bs t : List Byte) (s : State), 7 ≤ bs.length →
    decodeBytes (bs ++ t) = decodeBytes bs ∧ latchCommand (bs ++ t) s = latchCommand bs s ∧
      parseAndSend (bs ++ t) s = parseAndSend bs s

/-! ### Rejection

A command is latched (R24, R118) and the block's one parsing step ends it (R244). -/

/-- R89, R198: which error is reported, and when: the first in the fixed order; `InvalidEncoding` never is. -/
def Obligations.DecoderReportsTheFirstError : Prop :=
  ∀ bs : List Byte,
    (decodeBytes bs = .error .invalidLength ↔ bs.length < 7) ∧
    (∀ (c : Byte) (p : Fin 5), decodeBytes bs = .error (.invalidAddressChar c p) ↔
      7 ≤ bs.length ∧ bs[p.val]? = some c ∧ isAddrChar c = false ∧
        ∀ q : Fin 5, q < p → ∃ d, bs[q.val]? = some d ∧ isAddrChar d = true) ∧
    (∀ c : Byte, decodeBytes bs = .error (.invalidChannelChar c) ↔
      7 ≤ bs.length ∧ (∀ q : Fin 5, ∃ d, bs[q.val]? = some d ∧ isAddrChar d = true) ∧
        bs[5]? = some c ∧ c ≠ Byte.charA ∧ c ≠ Byte.charB ∧ c ≠ Byte.charC ∧ c ≠ Byte.charD) ∧
    (∀ c : Byte, decodeBytes bs = .error (.invalidStateChar c) ↔
      7 ≤ bs.length ∧ (∀ q : Fin 5, ∃ d, bs[q.val]? = some d ∧ isAddrChar d = true) ∧
        (∃ l : Letter, bs[5]? = some l.char) ∧ bs[6]? = some c ∧
          c ≠ Byte.char0 ∧ c ≠ Byte.char1) ∧
    decodeBytes bs ≠ .error .invalidEncoding

/-- R191, R111: a command of fewer than seven characters, whatever they are. `ADDR` is unchanged (R25 (4)). -/
def Obligations.ShortCommandIsRejected : Prop :=
  ∀ (s : State) (bs : List Byte), bs.length < 7 →
    ∃ t, blockStep (latchCommand bs s) = .next t ∧ Rejected s t .invalidLength 0#8 0#3 ∧
      t.result.code = 2#3 ∧ t.addr = s.addr

/-- R192, R112: the least offending position of the address is reported with its character; `ADDR` then holds some
address characters (R25 (3)). -/
def Obligations.BadAddressCharIsRejected : Prop :=
  ∀ (s : State) (bs : List Byte) (p : Fin 5) (c : Byte), 7 ≤ bs.length →
    bs[p.val]? = some c → isAddrChar c = false →
    (∀ q : Fin 5, q < p → ∃ d, bs[q.val]? = some d ∧ isAddrChar d = true) →
      ∃ t, blockStep (latchCommand bs s) = .next t ∧
        Rejected s t .invalidAddressChar c (BitVec.ofNat 3 p.val) ∧ t.result.code = 3#3 ∧
        wfAddr t.addr = true

/-- R193, R113: a channel character other than 'A' to 'D' is reported at position 5; `ADDR` holds the command's address
(R25 (2)). -/
def Obligations.BadChannelCharIsRejected : Prop :=
  ∀ (s : State) (bs : List Byte) (c : Byte), 7 ≤ bs.length →
    (∀ q : Fin 5, ∃ d, bs[q.val]? = some d ∧ isAddrChar d = true) → bs[5]? = some c →
    c ≠ Byte.charA → c ≠ Byte.charB → c ≠ Byte.charC → c ≠ Byte.charD →
      ∃ t, blockStep (latchCommand bs s) = .next t ∧ Rejected s t .invalidChannelChar c 5#3 ∧
        t.result.code = 4#3 ∧
        ∀ q : Fin 5, bs[q.val]? = some t.addr[q]

/-- R194, R114: a state character other than '0' or '1' is reported at position 6; `ADDR` holds the command's address
(R25 (2)). -/
def Obligations.BadStateCharIsRejected : Prop :=
  ∀ (s : State) (bs : List Byte) (l : Letter) (c : Byte), 7 ≤ bs.length →
    (∀ q : Fin 5, ∃ d, bs[q.val]? = some d ∧ isAddrChar d = true) → bs[5]? = some l.char →
    bs[6]? = some c → c ≠ Byte.char0 → c ≠ Byte.char1 →
      ∃ t, blockStep (latchCommand bs s) = .next t ∧ Rejected s t .invalidStateChar c 6#3 ∧
        t.result.code = 5#3 ∧
        ∀ q : Fin 5, bs[q.val]? = some t.addr[q]

/-! ### The encoder -/

/-- R141: `invalid` exactly when the channel is outside 1 to 5 or some address character is neither '0' nor '1'; the
command that called the encoder then ends with `InvalidEncoding`. -/
def Obligations.EncoderFailsExactlyOutsideItsDomain : Prop :=
  (∀ (a : AddrChars) (c : BitVec 3) (on : Bool), encodeCodeword a c on = none ↔
    c.toNat < 1 ∨ 5 < c.toNat ∨ ∃ i : Fin 5, a[i] ≠ Byte.char0 ∧ a[i] ≠ Byte.char1) ∧
  ∀ (l : Letter) (on : Bool) (a : AddrChars) (s : State),
    encodeCodeword a (channelOf l) on = none →
      ∃ t, exec (commandInstr l on a) s = .next t ∧ t.result = .invalidEncoding

/-- R143, R144, R145: the three parts of a codeword, symbol by symbol; the channel is one of 1 to 5. -/
def Obligations.EncoderMapsEachPart : Prop :=
  ∀ (a : AddrChars) (c : BitVec 3) (on : Bool) (cw : Codeword), encodeCodeword a c on = some cw →
    (∀ i : Fin 5, (a[i] = Byte.char0 ∧ cw[i.val] = .sf) ∨ (a[i] = Byte.char1 ∧ cw[i.val] = .s0)) ∧
    1 ≤ c.toNat ∧ c.toNat ≤ 5 ∧ (∀ p : Fin 5, cw[5 + p.val] = if p.val + 1 = c.toNat then .s0 else .sf) ∧
    (on = true → cw[10] = .s0 ∧ cw[11] = .sf) ∧ (on = false → cw[10] = .sf ∧ cw[11] = .s0)

/-- R147: a codeword is over '0' and 'F' only, has 2 to 7 symbols '0', and its last two symbols differ. -/
def Obligations.CodewordAlphabetAndCounts : Prop :=
  ∀ (a : AddrChars) (c : BitVec 3) (on : Bool) (cw : Codeword), encodeCodeword a c on = some cw →
    (∀ i : Fin 12, cw[i] = .s0 ∨ cw[i] = .sf) ∧
    2 ≤ cw.toList.count .s0 ∧ cw.toList.count .s0 ≤ 7 ∧ cw[10] ≠ cw[11]

/-- R147: different valid operands give different codewords. -/
def Obligations.EncoderIsInjective : Prop :=
  ∀ (a a' : AddrChars) (c c' : BitVec 3) (on on' : Bool) (cw : Codeword),
    encodeCodeword a c on = some cw → encodeCodeword a' c' on' = some cw →
      a = a' ∧ c = c' ∧ on = on'

/-! ### The eight commands -/

/-- R118, R173 and the rules of the eight commands: the parsing step of each, from every state. -/
def Obligations.CommandsStartTheirTransmission : Prop :=
  ∀ a : AddrChars, wfAddr a = true →
    Starts (.swAOff a) a 1#3 false tailA0 ∧ Starts (.swAOn a) a 1#3 true tailA1 ∧
    Starts (.swBOff a) a 2#3 false tailB0 ∧ Starts (.swBOn a) a 2#3 true tailB1 ∧
    Starts (.swCOff a) a 3#3 false tailC0 ∧ Starts (.swCOn a) a 3#3 true tailC1 ∧
    Starts (.swDOff a) a 4#3 false tailD0 ∧ Starts (.swDOn a) a 4#3 true tailD1

/-- R120 to R127: each command, from its string to its last pulse. -/
def Obligations.CommandsSwitchTheirChannel : Prop :=
  ∀ a : AddrChars, wfAddr a = true →
    Switches (.swAOff a) a Byte.charA Byte.char0 0x30303030304130#56
      1#3 false tailA0 ∧
    Switches (.swAOn a) a Byte.charA Byte.char1 0x30303030304131#56
      1#3 true tailA1 ∧
    Switches (.swBOff a) a Byte.charB Byte.char0 0x30303030304230#56
      2#3 false tailB0 ∧
    Switches (.swBOn a) a Byte.charB Byte.char1 0x30303030304231#56
      2#3 true tailB1 ∧
    Switches (.swCOff a) a Byte.charC Byte.char0 0x30303030304330#56
      3#3 false tailC0 ∧
    Switches (.swCOn a) a Byte.charC Byte.char1 0x30303030304331#56
      3#3 true tailC1 ∧
    Switches (.swDOff a) a Byte.charD Byte.char0 0x30303030304430#56
      4#3 false tailD0 ∧
    Switches (.swDOn a) a Byte.charD Byte.char1 0x30303030304431#56
      4#3 true tailD1

/-- R117, R195: a command given an address the encoder refuses (no decoded command has one) raises `InvalidEncoding`
and touches no pin. That the meaning first stores the address is the model's choice (assumption 24). -/
def Obligations.IllFormedAddressRaisesInvalidEncoding : Prop :=
  ∀ (l : Letter) (on : Bool) (a : AddrChars) (s : State), wfAddr a = false →
    ∃ t, exec (commandInstr l on a) s = .next t ∧ Rejected s t .invalidEncoding 0#8 0#3 ∧
      t.result.code = 6#3

/-! ### The symbols, the sync pulse and the transmission -/

/-- R163: `TX0`, two pulses (1, 3); 8 units, the pin high for 2. -/
def Obligations.Tx0SendsTwoShortPulses : Prop :=
  SendsTwoPulses .tx0 .s0 1 3 1 3 ∧ unitSum (symbolPulses .s0) = 8 ∧ highUnits (symbolPulses .s0) = 2

/-- R164: `TX1`, two pulses (3, 1); 8 units, the pin high for 6. -/
def Obligations.Tx1SendsTwoLongPulses : Prop :=
  SendsTwoPulses .tx1 .s1 3 1 3 1 ∧ unitSum (symbolPulses .s1) = 8 ∧ highUnits (symbolPulses .s1) = 6

/-- R165: `TXF`, a pulse (1, 3) and then a pulse (3, 1); 8 units, the pin high for 4. -/
def Obligations.TxFSendsShortThenLong : Prop :=
  SendsTwoPulses .txF .sf 1 3 3 1 ∧ unitSum (symbolPulses .sf) = 8 ∧ highUnits (symbolPulses .sf) = 4

/-- R166: `TXNOP` emits nothing, keeps the pin, sets no flag; the next symbol or the sync pulse follows, in one step,
in the same repetition. No codeword of the encoder holds such a symbol. -/
def Obligations.TxNopSendsNothing : Prop :=
  (∀ (s : State) (rep : Fin 10) (sym : Fin 12) (pul : Fin 2) (half : Half),
    s.seq = .tx rep (.data sym pul) half →
      exec .txNop s = .next { s with seq := placeAfter rep sym } ∧
      (s.cw[sym] = .other → s.host = [] → step s = .next { s with seq := placeAfter rep sym })) ∧
  ∀ (a : AddrChars) (c : BitVec 3) (on : Bool) (cw : Codeword), encodeCodeword a c on = some cw →
    ∀ i : Fin 12, cw[i] ≠ .other

/-- R167, R161, R173: the two steps of the sync pulse; the next repetition follows directly, and after the tenth the
command is over with `RESULT` = `OK`. -/
def Obligations.SyncPulseEndsEachRepetition : Prop :=
  ∀ (s : State) (rep : Fin 10), s.host = [] →
    (s.seq = .tx rep .sync .h → step s = .next
      { s with tx := .high, trace := s.trace ++ [.set .high, .delay (1 * s.cfg.tUnit)],
               seq := .tx rep .sync .l }) ∧
    (∀ h : rep.val + 1 < 10, s.seq = .tx rep .sync .l → step s = .next
      { s with tx := .low, trace := s.trace ++ [.set .low, .delay (31 * s.cfg.tUnit)],
               seq := .tx ⟨rep.val + 1, h⟩ (.data 0 0) .h }) ∧
    (rep = 9 → s.seq = .tx rep .sync .l → ∃ t, step s = .next t ∧
      t.trace = s.trace ++ [.set .low, .delay (31 * s.cfg.tUnit)] ∧ t.tx = .low ∧ t.seq = .idle ∧
      t.result = .ok ∧ t.errChar = 0#8 ∧ t.errPos = 0#3 ∧ t.addr = s.addr ∧ t.cfg = s.cfg ∧
      t.phase = s.phase ∧ t.en = s.en ∧ t.host = s.host)

/-- R163 to R166 where `SEQ` names no data symbol: the symbol is sent whole and `SEQ` stays (that it is so there is the
model's choice, assumption 8; no step of the machine executes one there). -/
def Obligations.SymbolOpsAloneSendTheWholeSymbol : Prop :=
  ∀ s : State, (∀ rep sym pul half, s.seq ≠ .tx rep (.data sym pul) half) →
    exec .tx0 s = .next
      { s with tx := .low, trace := s.trace ++ twoPulses s.cfg.tUnit 1 3 1 3 } ∧
    exec .tx1 s = .next
      { s with tx := .low, trace := s.trace ++ twoPulses s.cfg.tUnit 3 1 3 1 } ∧
    exec .txF s = .next
      { s with tx := .low, trace := s.trace ++ twoPulses s.cfg.tUnit 1 3 3 1 } ∧
    exec .txNop s = .next s

/-- R119, R160, R166: what an instruction leaves unchanged. A symbol operation writes `TX`, the trace and `SEQ`; a
well-formed command's parsing step writes `ADDR`, `CHAN`, `STATE`, `CW`, `CW_OK` and `SEQ`. There is no memory. -/
def Obligations.InstructionFrames : Prop :=
  (∀ (i : Instr) (s t : State), IsSymbolOp i → exec i s = .next t →
    t = { s with tx := t.tx, trace := t.trace, seq := t.seq }) ∧
  ∀ (i : Instr) (s t : State), ¬ IsSymbolOp i → i.wf = true → exec i s = .next t →
    t = { s with addr := t.addr, chan := t.chan, swState := t.swState, cw := t.cw, cwOk := t.cwOk,
                 seq := t.seq }

/-- R168, R172: `TRANSMIT` appends the four events of each pulse of the ten repetitions, in order, leaves the pin low
and changes nothing else. -/
def Obligations.TransmitAppendsTheWaveform : Prop :=
  ∀ (cw : Codeword) (s : State), transmit cw s =
    { s with trace := s.trace ++ transmissionEvents s.cfg.tUnit cw, tx := .low }

/-- R175: the counts of a transmission of twelve valid symbols. -/
def Obligations.TransmissionCounts : Prop :=
  ∀ (cw : Codeword) (T : Nat), (∀ i : Fin 12, cw[i] ≠ .other) →
    (repetitionPulses cw).length = 25 ∧
    ((repetitionPulses cw).flatMap (pulseEvents T)).length = 100 ∧
    unitSum (repetitionPulses cw) = 128 ∧
    (transmissionPulses cw).length = 250 ∧ unitSum (transmissionPulses cw) = 1280 ∧
    (transmissionEvents T cw).length = 1000 ∧
    setCount .high (transmissionEvents T cw) = 250 ∧ setCount .low (transmissionEvents T cw) = 250 ∧
    delayCount (transmissionEvents T cw) = 500 ∧ delaySum (transmissionEvents T cw) = 1280 * T ∧
    ((∀ i : Fin 12, cw[i] = .s0 ∨ cw[i] = .sf) →
      highUnits (repetitionPulses cw) + 2 * cw.toList.count .s0 = 49)

/-- R174: the waveform of twelve valid symbols is 500 segments, alternating, starting high, none of zero length. -/
def Obligations.WaveformAlternates : Prop :=
  ∀ (cw : Codeword) (T : Nat), (∀ i : Fin 12, cw[i] ≠ .other) → 1 ≤ T →
    (segments T (transmissionPulses cw)).length = 500 ∧
    ∀ i (h : i < (segments T (transmissionPulses cw)).length),
      (segments T (transmissionPulses cw))[i].1 = (if i % 2 = 0 then .high else .low) ∧
      0 < (segments T (transmissionPulses cw))[i].2

/-- R172, R173: from the first half-pulse, the sequencer's steps are `TRANSMIT` and the end of the command, for every
twelve symbols, those no command produces among them. -/
def Obligations.SequencerCarriesOutTransmit : Prop :=
  ∀ s : State, s.host = [] → s.seq = .tx 0 (.data 0 0) .h →
    runSteps (10 * repetitionSteps s.cw) s = .next (completeCommand (transmit s.cw s))

/-! ### Whole commands -/

/-- R118, R244: a submission alone runs `parse_and_send` to its end, in 1 parsing step and 500 sequencer steps after
the submission if it is accepted, in 1 step if it is rejected. -/
def Obligations.SubmissionRunsParseAndSend : Prop :=
  ∀ (s : State) (bs : List Byte), Submits s bs →
    ((∃ i, decodeBytes bs = .ok i) →
      runSteps 502 s = .next (parseAndSend bs { s with host := [] })) ∧
    ((∃ e, decodeBytes bs = .error e) →
      runSteps 2 s = .next (parseAndSend bs { s with host := [] }))

/-- R31, R237, R242: `BUSY` rises at submission and falls when the command ends: after the last `delay` for an accepted
command, at once for a rejected one. -/
def Obligations.BusyFromSubmissionToTheEnd : Prop :=
  ∀ (s : State) (bs : List Byte), Submits s bs →
    ((∃ i, decodeBytes bs = .ok i) →
      (∀ k, 1 ≤ k → k ≤ 501 → ∃ t, runSteps k s = .next t ∧ t.busy = true) ∧
      ∃ t, runSteps 502 s = .next t ∧ t.busy = false) ∧
    ((∃ e, decodeBytes bs = .error e) →
      (∃ t, runSteps 1 s = .next t ∧ t.busy = true) ∧
      ∃ t, runSteps 2 s = .next t ∧ t.busy = false)

/-- R128: for one unit duration, the result and the added trace are a function of the first seven characters (or of
there being fewer) alone. -/
def Obligations.CommandIndependentOfHistory : Prop :=
  ∀ (s s' : State) (bs bs' : List Byte), s.cfg.tUnit = s'.cfg.tUnit → firstSeven bs = firstSeven bs' →
    (parseAndSend bs s).result = (parseAndSend bs' s').result ∧
    (parseAndSend bs s).errChar = (parseAndSend bs' s').errChar ∧
    (parseAndSend bs s).errPos = (parseAndSend bs' s').errPos ∧
    ∃ es, (parseAndSend bs s).trace = s.trace ++ es ∧ (parseAndSend bs' s').trace = s'.trace ++ es

/-- R129: a command issues all 250 pulses or none. -/
def Obligations.CommandIsAllOrNothing : Prop :=
  ∀ (s : State) (bs : List Byte),
    ((parseAndSend bs s).result = .ok ∧ ∃ cw, (transmissionPulses cw).length = 250 ∧
      (parseAndSend bs s).trace = s.trace ++ transmissionEvents s.cfg.tUnit cw) ∨
    ((parseAndSend bs s).result ≠ .ok ∧ (parseAndSend bs s).trace = s.trace ∧
      (parseAndSend bs s).tx = s.tx)

/-- R64 (1), (2): the trace of a sequence of commands is the concatenation of their traces, each a function of the
unit duration and its own characters. -/
def Obligations.TracesOfCommandsConcatenate : Prop :=
  ∀ (cmds : List (List Byte)) (s : State),
    (cmds.foldl (fun t bs => parseAndSend bs t) s).trace =
      s.trace ++ cmds.flatMap (commandTrace s.cfg.tUnit)

/-- R117, R195: no step of the machine records `InvalidEncoding`. -/
def Obligations.InvalidEncodingIsNeverRecorded : Prop :=
  ∀ s t : State, step s = .next t → t.result = .invalidEncoding → s.result = .invalidEncoding

/-! ### The whole machine -/

/-- R40: every value the spec gives the state after reset. -/
def Obligations.ResetHasTheSpecsValues : Prop :=
  State.reset.cfg.tUnit = 350 ∧ State.reset.cfg.txPin = none ∧ State.reset.cfg.enPin = none ∧
  State.reset.phase = .init ∧ State.reset.cwOk = false ∧ State.reset.seq = .idle ∧
  State.reset.busy = false ∧ State.reset.result = .none ∧ State.reset.errChar = 0#8 ∧
  State.reset.errPos = 0#3 ∧ State.reset.tx = .low ∧ State.reset.en = .low ∧ State.reset.trace = []

/-- The invariant of the block holds after reset. Its clause on `ADDR` holds there by the model's reset value
(assumption 1). -/
def Obligations.InvHoldsAtReset : Prop :=
  Inv State.reset

/-- R21 to R35: every step, the block's or the host's, keeps the invariant. -/
def Obligations.InvKeptByEveryStep : Prop :=
  ∀ s t : State, Inv s → step s = .next t → Inv t

/-- R243, R244: a step answers a next state exactly when the host's next turn is legal; nothing the block does itself
ever stops it. The model's choices in it: the host's turns are a list, and a wait or an empty list gives the block its
step (assumption 2), which idle leaves the state as it is (assumption 22); a boot or a shutdown in the wrong phase and a
boot without both pins are refused (assumption 9); a pin equal to the other may be written and is refused at boot
(assumption 10); whether the pins are acquired is the boot's argument (assumption 13). -/
def Obligations.StepAnswersExactlyWhenHostIsLegal : Prop :=
  ∀ s : State, SafeStep s ↔ s.hostLegal = true

/-- R170, R244: left alone, the block runs on for as long as it is asked to, from every state. That an idle step is a
step, which leaves the state as it is, is the model's choice (assumption 22). -/
def Obligations.BlockAloneNeverStops : Prop :=
  ∀ (s : State) (n : Nat), s.host = [] → ∃ t, runSteps n s = .next t

/-- R244: every command ends: left alone, the block is idle after at most 501 steps, from every state. -/
def Obligations.EveryCommandEnds : Prop :=
  ∀ s : State, s.host = [] → ∃ n t, n ≤ 501 ∧ runSteps n s = .next t ∧ t.busy = false

/-- R169, R176, R206: a step of the block's own adds nothing to the trace and leaves the pin, or adds one `Set` and one
`Delay` of 1, 3 or 31 units, and the pin has the level set. -/
def Obligations.PinMovesOnlyByHalfPulses : Prop :=
  ∀ s t : State, blockStep s = .next t →
    (t.trace = s.trace ∧ t.tx = s.tx) ∨
    ∃ (l : Level) (n : Nat), (n = 1 ∨ n = 3 ∨ n = 31) ∧ t.tx = l ∧
      t.trace = s.trace ++ [.set l, .delay (n * s.cfg.tUnit)]

/-- R41, R119, R235: `CFG`, `PHASE` and `EN` are never changed by a command, and the host's turns are its own. -/
def Obligations.BlockNeverWritesConfiguration : Prop :=
  ∀ s t : State, blockStep s = .next t →
    t.cfg = s.cfg ∧ t.phase = s.phase ∧ t.en = s.en ∧ t.host = s.host

/-- R30, R173: what a step runs, by the position `SEQ` names, when the turn is the block's: the latched command at
`PARSE`, its rejection if it does not decode, the symbol at a data symbol; idle, the block waits (that this is a step
is the model's choice, assumption 22; that the turns are a list is assumption 2). -/
def Obligations.StepRunsTheNamedInstruction : Prop :=
  ∀ s u : State, BlockTurn s u →
    (∀ i : Instr, s.seq = .parse → s.lenOk = true → decodeCommand s.cmd = .ok i → step s = exec i u) ∧
    (∀ e : CmdError, s.seq = .parse → decodeLatched s.lenOk s.cmd = .error e →
      step s = .next (rejectCommand e u)) ∧
    (∀ (rep : Fin 10) (sym : Fin 12) (pul : Fin 2) (half : Half),
      s.seq = .tx rep (.data sym pul) half → step s = exec (decodeSymbol s.cw[sym]) u) ∧
    (s.seq = .idle → step s = .next u)

/-- The placement of a table word (assumption 3), as the model numbers its bits (assumption 16): the next step runs
exactly the word's instruction. -/
def Obligations.PlacedTableWordRuns : Prop :=
  ∀ (s : State) (nbits w : Nat) (i : Instr), decodeTableWord nbits w = some i →
    step (s.withFetchWord nbits w) = exec i (s.withFetchWord nbits w)

/-! ### The host's moves

That the host's turns are a list, one move a step, is the model's choice (assumption 2). -/

/-- R24, R234, R236: a submission is latched when the phase is `ACTIVE` and the block is not busy, and refused
otherwise. With fewer than seven characters `CMD` is left open. -/
def Obligations.SubmissionIsLatchedOrRefused : Prop :=
  ∀ (s : State) (bs : List Byte) (rest : List HostTurn), s.host = .act (.submit bs) :: rest →
    (s.phase ≠ .active → step s = .refused .submitWrongPhase) ∧
    (s.phase = .active → s.busy = true → step s = .refused .submitWhileBusy) ∧
    (s.phase = .active → s.busy = false → 7 ≤ bs.length → ∃ cmd : Vector Byte 7,
      (∀ i : Fin 7, bs[i.val]? = some cmd[i]) ∧
      step s = .next { s with host := rest, cmd := cmd, lenOk := true, seq := .parse }) ∧
    (s.phase = .active → s.busy = false → bs.length < 7 → ∃ t, step s = .next t ∧
      t = { s with host := rest, cmd := t.cmd, lenOk := false, seq := .parse, draws := t.draws })

/-- R21, R22, R235: a configuration register is written in `INIT` only, a unit of 0 never. That a write names one
register, and stores a pin identifier equal to the other (R243 asks for distinct pins at the write), is the model's
choice (assumption 10, DESIGN CHOICE). -/
def Obligations.ConfigurationIsWrittenInInitOnly : Prop :=
  ∀ (s : State) (us : Nat) (pin : PinId) (rest : List HostTurn),
    (s.host = .act (.writeTUnit us) :: rest →
      (s.phase ≠ .init → step s = .refused .configWrongPhase) ∧
      (s.phase = .init → us = 0 → step s = .refused .zeroTUnit) ∧
      (s.phase = .init → 1 ≤ us →
        step s = .next { s with host := rest, cfg := { s.cfg with tUnit := us } })) ∧
    (s.host = .act (.writeTxPin pin) :: rest →
      (s.phase ≠ .init → step s = .refused .configWrongPhase) ∧
      (s.phase = .init →
        step s = .next { s with host := rest, cfg := { s.cfg with txPin := some pin } })) ∧
    (s.host = .act (.writeEnPin pin) :: rest →
      (s.phase ≠ .init → step s = .refused .configWrongPhase) ∧
      (s.phase = .init →
        step s = .next { s with host := rest, cfg := { s.cfg with enPin := some pin } }))

/-- R231, R232: boot from `INIT` with both pins given, distinct and acquired sets the pin low, the enable pin high and
the phase `ACTIVE`. Otherwise it is refused, by name, and that is the model's: outside `INIT` or without both pins by
assumption 9 (DEDUCED; R243 does not list them as refused), with equal pins by assumption 10 (DESIGN CHOICE), with pins
not acquired, which the boot's argument says, by assumption 13 (DEDUCED). -/
def Obligations.BootEntersActive : Prop :=
  ∀ (s : State) (acquired : Bool) (rest : List HostTurn), s.host = .act (.boot acquired) :: rest →
    (s.phase ≠ .init → step s = .refused .bootWrongPhase) ∧
    (s.phase = .init → (s.cfg.txPin = none ∨ s.cfg.enPin = none) →
      step s = .refused .pinsNotGiven) ∧
    (∀ p q : PinId, s.phase = .init → s.cfg.txPin = some p → s.cfg.enPin = some q →
      (p = q → step s = .refused .pinsNotDistinct) ∧
      (p ≠ q → acquired = false → step s = .refused .pinsNotAcquired) ∧
      (p ≠ q → acquired = true →
        step s = .next { s with host := rest, tx := .low, en := .high, phase := .active }))

/-- R233: shutdown from `ACTIVE`, not busy, sets the enable pin low and the phase `STOPPED`; while busy it is refused
(R243). That it is refused outside `ACTIVE` too is the model's reading (assumption 9, DEDUCED). -/
def Obligations.ShutdownEntersStopped : Prop :=
  ∀ (s : State) (rest : List HostTurn), s.host = .act .shutdown :: rest →
    (s.phase ≠ .active → step s = .refused .shutdownWrongPhase) ∧
    (s.phase = .active → s.busy = true → step s = .refused .shutdownWhileBusy) ∧
    (s.phase = .active → s.busy = false →
      step s = .next { s with host := rest, en := .low, phase := .stopped })

/-- R230, R243: reset, from every state that is not busy, gives every register its value after reset; while busy it is
refused. That the registers the spec leaves unspecified take the same values as after the first reset is the model's
choice (assumptions 1 and 19). -/
def Obligations.HostResetRestoresReset : Prop :=
  ∀ (s : State) (rest : List HostTurn), s.host = .act .reset :: rest →
    (s.busy = true → step s = .refused .resetWhileBusy) ∧
    (s.busy = false → step s = .next { State.reset with host := rest, draws := s.draws })

/-- R243: reading the status and observing the pin are legal at any time and change nothing. -/
def Obligations.StatusReadsChangeNothing : Prop :=
  ∀ (s : State) (rest : List HostTurn),
    (s.host = .act .readStatus :: rest → step s = .next { s with host := rest }) ∧
    (s.host = .act .observePin :: rest → step s = .next { s with host := rest })
end

