-- ==== Sys2Proof/Laws/Decode.lean ====
section
/-! SUPPORT. What the decoder's parts answer, each once: the character tests, the first offending position, the
letter, the state, the seven latched characters, and the decoder as a whole. -/

namespace Sys2Proof

theorem isAddrChar_iff (c : Byte) : isAddrChar c = true ↔ c = Byte.char0 ∨ c = Byte.char1 := by
  simp [isAddrChar]

theorem isAddrChar_stateChar (on : Bool) : isAddrChar (stateChar on) = true := by
  cases on <;> decide

theorem wfAddr_iff (a : AddrChars) : wfAddr a = true ↔ ∀ i : Fin 5, isAddrChar a[i] = true := by
  simp [wfAddr, Fin.forall_fin_succ, and_assoc]

/-- No offending position means a well-formed address (R112). -/
theorem firstBadAddr_none_iff (a : AddrChars) : firstBadAddr a = none ↔ wfAddr a = true := by
  unfold firstBadAddr wfAddr
  repeat' split
  all_goals simp_all

/-- The offending position is the least one (R89, R112). -/
theorem firstBadAddr_some_iff (a : AddrChars) (p : Fin 5) :
    firstBadAddr a = some p ↔
      isAddrChar a[p] = false ∧ ∀ q : Fin 5, q < p → isAddrChar a[q] = true := by
  unfold firstBadAddr
  fin_cases p <;> simp [Fin.forall_fin_succ] <;> (repeat' split) <;> simp_all

theorem decodeLetter_some_iff (c : Byte) (l : Letter) : decodeLetter c = some l ↔ c = l.char := by
  unfold decodeLetter Letter.char
  constructor
  · intro h
    (repeat' split at h) <;> simp_all <;> subst h <;> rfl
  · rintro rfl
    cases l <;> decide

theorem decodeState_some_iff (c : Byte) (on : Bool) :
    decodeState c = some on ↔ c = stateChar on := by
  unfold decodeState stateChar
  constructor
  · intro h
    (repeat' split at h) <;> simp_all
  · rintro rfl
    cases on <;> decide

/-- The latch takes exactly the first seven characters (R24, R85). -/
theorem firstSeven_some_iff (bs : List Byte) (cmd : Vector Byte 7) :
    firstSeven bs = some cmd ↔ ∃ t, bs = cmd.toList ++ t := by
  constructor
  · intro h
    match bs, h with
    | c0 :: c1 :: c2 :: c3 :: c4 :: c5 :: c6 :: t, h =>
      obtain rfl : #v[c0, c1, c2, c3, c4, c5, c6] = cmd := by simpa [firstSeven] using h
      exact ⟨t, rfl⟩
  · rintro ⟨t, rfl⟩
    obtain ⟨⟨l⟩, hl⟩ := cmd
    match l, hl with
    | [c0, c1, c2, c3, c4, c5, c6], _ => rfl

theorem firstSeven_none_iff (bs : List Byte) : firstSeven bs = none ↔ bs.length < 7 := by
  constructor
  · intro h
    match bs, h with
    | [], _ | [_], _ | [_, _], _ | [_, _, _], _ | [_, _, _, _], _ | [_, _, _, _, _], _
    | [_, _, _, _, _, _], _ => simp
  · intro h
    match bs, h with
    | [], _ | [_], _ | [_, _], _ | [_, _, _], _ | [_, _, _, _], _ | [_, _, _, _, _], _
    | [_, _, _, _, _, _], _ => rfl

/-- Where the latch succeeds there are seven characters, and it holds them in order (R58). -/
theorem firstSeven_getElem (bs : List Byte) (cmd : Vector Byte 7) (h : firstSeven bs = some cmd)
    (i : Fin 7) : bs[i.val]? = some cmd[i] := by
  obtain ⟨t, rfl⟩ := (firstSeven_some_iff bs cmd).1 h
  rw [List.getElem?_append_left (by simp)]
  simp

theorem addrField_getElem (cmd : Vector Byte 7) (i : Fin 5) :
    (addrField cmd)[i] = cmd[i.val]'(by omega) := by
  fin_cases i <;> rfl

theorem commandInstr_injective {l l' : Letter} {on on' : Bool} {a a' : AddrChars}
    (h : commandInstr l on a = commandInstr l' on' a') : l = l' ∧ on = on' ∧ a = a' := by
  cases l <;> cases on <;> cases l' <;> cases on' <;> simp_all [commandInstr]

theorem commandInstr_wf (l : Letter) (on : Bool) (a : AddrChars) :
    (commandInstr l on a).wf = wfAddr a := by
  cases l <;> cases on <;> rfl

theorem encode_commandInstr (l : Letter) (on : Bool) (a : AddrChars) :
    encode (commandInstr l on a) = .inl (commandChars l on a).toList := by
  cases l <;> cases on <;> rfl

/-- Everything an accepted command is: five address characters, a letter, a state character (R80, R87). -/
theorem decodeCommand_ok_iff (cmd : Vector Byte 7) (i : Instr) :
    decodeCommand cmd = .ok i ↔
      ∃ l on, wfAddr (addrField cmd) = true ∧ cmd[5] = l.char ∧ cmd[6] = stateChar on ∧
        i = commandInstr l on (addrField cmd) := by
  unfold decodeCommand
  constructor
  · intro h
    split at h
    · simp at h
    · next hb =>
      split at h
      · simp at h
      · next l hl =>
        split at h
        · simp at h
        · next on hs =>
          exact ⟨l, on, (firstBadAddr_none_iff _).1 hb, (decodeLetter_some_iff _ _).1 hl,
            (decodeState_some_iff _ _).1 hs, by simpa using h.symm⟩
  · rintro ⟨l, on, ha, hl, hs, rfl⟩
    simp [(firstBadAddr_none_iff _).2 ha, (decodeLetter_some_iff _ _).2 hl,
      (decodeState_some_iff _ _).2 hs]

/-- Every error of the decoder, with the state of the string it stands for (R89, R198). -/
theorem decodeCommand_error_cases (cmd : Vector Byte 7) (e : CmdError)
    (h : decodeCommand cmd = .error e) :
    (∃ p, e = .invalidAddressChar (addrField cmd)[p] p ∧ firstBadAddr (addrField cmd) = some p) ∨
    (e = .invalidChannelChar cmd[5] ∧ wfAddr (addrField cmd) = true ∧
      decodeLetter cmd[5] = none) ∨
    (e = .invalidStateChar cmd[6] ∧ wfAddr (addrField cmd) = true ∧
      (∃ l, decodeLetter cmd[5] = some l) ∧ decodeState cmd[6] = none) := by
  unfold decodeCommand at h
  split at h
  · next p hp => exact .inl ⟨p, by simpa using h.symm, hp⟩
  · next hb =>
    have ha := (firstBadAddr_none_iff _).1 hb
    split at h
    · next hl => exact .inr (.inl ⟨by simpa using h.symm, ha, hl⟩)
    · next l hl =>
      split at h
      · next hs => exact .inr (.inr ⟨by simpa using h.symm, ha, ⟨l, hl⟩, hs⟩)
      · simp at h

/-- The symbol codes and the symbols are the same four things (R88). -/
@[simp] theorem Symbol.ofCode_code (y : Symbol) : Symbol.ofCode y.code = y := by
  cases y <;> rfl

@[simp] theorem Symbol.code_ofCode (w : BitVec 2) : (Symbol.ofCode w).code = w := by
  revert w; decide

end Sys2Proof
end

