-- ==== Sys2Proof/Laws/Encoder.lean ====
section
/-! SUPPORT. What `ENCODE` answers (41_codeword_encoder.md R141 to R147). -/

namespace Sys2Proof.Machine

theorem addrMap_none_iff (c : Byte) : addrMap c = none ↔ isAddrChar c = false := by
  unfold addrMap isAddrChar
  (repeat' split) <;> simp_all

theorem addrMap_some (c : Byte) (h : isAddrChar c = true) :
    addrMap c = some (addrSymbol c) := by
  rcases (isAddrChar_iff c).1 h with rfl | rfl <;> rfl

theorem addrSymbol_alphabet (c : Byte) : addrSymbol c = .s0 ∨ addrSymbol c = .sf := by
  unfold addrSymbol; split <;> simp

theorem addrMap_injective {c c' : Byte} {y : Symbol} (h : addrMap c = some y)
    (h' : addrMap c' = some y) : c = c' := by
  have good : ∀ {c : Byte}, addrMap c = some y → isAddrChar c = true := fun hy => by
    by_contra hc
    simp [(addrMap_none_iff _).2 (by simpa using hc)] at hy
  rcases (isAddrChar_iff c).1 (good h) with rfl | rfl <;>
    rcases (isAddrChar_iff c').1 (good h') with rfl | rfl <;>
      first
      | rfl
      | (exfalso; rw [← h'] at h; revert h; decide)

theorem addrMap_alphabet {c : Byte} {y : Symbol} (h : addrMap c = some y) : y = .s0 ∨ y = .sf := by
  unfold addrMap at h
  (repeat' split at h) <;> simp_all

theorem channelInRange_channelOf (l : Letter) : channelInRange (channelOf l) = true := by
  cases l <;> rfl

/-- In the encoder's range the channel row is the one with its single `S0` at `channel - 1` (R51). -/
theorem chRom_in_range (c : BitVec 3) (h : channelInRange c = true) :
    ∃ row, chRom c = some row ∧
      ∀ p : Fin 5, row[p] = if p.val + 1 = c.toNat then .s0 else .sf := by
  revert h; revert c; decide

/-- The address part of a well-formed address (R143). -/
theorem encodeAddr_of_wf (a : AddrChars) (h : wfAddr a = true) :
    encodeAddr a = some #v[addrSymbol a[0], addrSymbol a[1],
      addrSymbol a[2], addrSymbol a[3],
      addrSymbol a[4]] := by
  simp only [wfAddr, Bool.and_eq_true] at h
  obtain ⟨⟨⟨⟨h0, h1⟩, h2⟩, h3⟩, h4⟩ := h
  simp [encodeAddr, addrMap_some _ h0, addrMap_some _ h1, addrMap_some _ h2, addrMap_some _ h3,
    addrMap_some _ h4]

/-- An offending character leaves no address part (R141). -/
theorem encodeAddr_of_not_wf (a : AddrChars) (h : wfAddr a = false) : encodeAddr a = none := by
  unfold encodeAddr
  cases e0 : addrMap a[0] with
  | none => rfl
  | some _ =>
    cases e1 : addrMap a[1] with
    | none => rfl
    | some _ =>
      cases e2 : addrMap a[2] with
      | none => rfl
      | some _ =>
        cases e3 : addrMap a[3] with
        | none => rfl
        | some _ =>
          cases e4 : addrMap a[4] with
          | none => rfl
          | some _ =>
            have good : ∀ {c : Byte} {y : Symbol}, addrMap c = some y → isAddrChar c = true := by
              intro c y hy
              by_contra hc
              simp [(addrMap_none_iff c).2 (by simpa using hc)] at hy
            simp [wfAddr, good e0, good e1, good e2, good e3, good e4] at h

/-- The encoder on valid operands: the three parts, joined (R59, R146). -/
theorem encodeCodeword_of_valid (a : AddrChars) (c : BitVec 3) (on : Bool) (row : Vector Symbol 5)
    (ha : wfAddr a = true) (hc : channelInRange c = true) (hr : chRom c = some row) :
    encodeCodeword a c on = some (joinCodeword
      #v[addrSymbol a[0], addrSymbol a[1],
        addrSymbol a[2], addrSymbol a[3],
        addrSymbol a[4]] row (stRom on)) := by
  simp [encodeCodeword, hc, hr, encodeAddr_of_wf a ha]

/-- What an answered codeword comes from (R141, R146). -/
theorem encodeCodeword_some_cases {a : AddrChars} {c : BitVec 3} {on : Bool} {cw : Codeword}
    (h : encodeCodeword a c on = some cw) :
    wfAddr a = true ∧ channelInRange c = true ∧ ∃ y row, encodeAddr a = some y ∧
      chRom c = some row ∧ cw = joinCodeword y row (stRom on) := by
  unfold encodeCodeword at h
  split at h
  · next hc =>
    have ha : wfAddr a = true := by
      by_contra hn
      simp [encodeAddr_of_not_wf a (by simpa using hn)] at h
    obtain ⟨row, hr, -⟩ := chRom_in_range c hc
    rw [encodeAddr_of_wf a ha, hr] at h
    exact ⟨ha, hc, _, row, encodeAddr_of_wf a ha, hr, by simpa using h.symm⟩
  · simp at h

/-- Every symbol of an answered codeword is `S0` or `SF` (R147). -/
theorem encodeCodeword_alphabet {a : AddrChars} {c : BitVec 3} {on : Bool} {cw : Codeword}
    (h : encodeCodeword a c on = some cw) (i : Fin 12) : cw[i] = .s0 ∨ cw[i] = .sf := by
  obtain ⟨ha, hc, y, row, hy, hr, rfl⟩ := encodeCodeword_some_cases h
  obtain ⟨row', hr', hrow⟩ := chRom_in_range c hc
  obtain rfl : row = row' := by simpa [hr] using hr'
  have hrow' : ∀ p : Fin 5, row[p] = .s0 ∨ row[p] = .sf := fun p => by
    rw [hrow]; split <;> simp
  have hy' : ∀ p : Fin 5, y[p] = .s0 ∨ y[p] = .sf := fun p => by
    rw [encodeAddr_of_wf a ha, Option.some.injEq] at hy
    subst hy
    fin_cases p <;> exact addrSymbol_alphabet _
  have hs : ∀ p : Fin 2, (stRom on)[p] = .s0 ∨ (stRom on)[p] = .sf := by
    cases on <;> decide
  fin_cases i
  exacts [hy' 0, hy' 1, hy' 2, hy' 3, hy' 4, hrow' 0, hrow' 1, hrow' 2, hrow' 3, hrow' 4, hs 0, hs 1]

end Sys2Proof.Machine
end

