-- ==== Sys2Proof/Laws/State.lean ====
section
/-! SUPPORT. One lemma per field per shared operation: what each operation does to each field of State. Later proofs
rewrite with these and unfold no record update. -/

namespace Sys2Proof.Machine

/-! ### `set_output`: `setOutput` -/

@[simp] theorem setOutput_cfg (l : Level) (s : State) :
    (setOutput l s).cfg = s.cfg := rfl

@[simp] theorem setOutput_phase (l : Level) (s : State) :
    (setOutput l s).phase = s.phase := rfl

@[simp] theorem setOutput_cmd (l : Level) (s : State) :
    (setOutput l s).cmd = s.cmd := rfl

@[simp] theorem setOutput_lenOk (l : Level) (s : State) :
    (setOutput l s).lenOk = s.lenOk := rfl

@[simp] theorem setOutput_addr (l : Level) (s : State) :
    (setOutput l s).addr = s.addr := rfl

@[simp] theorem setOutput_chan (l : Level) (s : State) :
    (setOutput l s).chan = s.chan := rfl

@[simp] theorem setOutput_swState (l : Level) (s : State) :
    (setOutput l s).swState = s.swState := rfl

@[simp] theorem setOutput_cw (l : Level) (s : State) :
    (setOutput l s).cw = s.cw := rfl

@[simp] theorem setOutput_cwOk (l : Level) (s : State) :
    (setOutput l s).cwOk = s.cwOk := rfl

@[simp] theorem setOutput_seq (l : Level) (s : State) :
    (setOutput l s).seq = s.seq := rfl

@[simp] theorem setOutput_result (l : Level) (s : State) :
    (setOutput l s).result = s.result := rfl

@[simp] theorem setOutput_errChar (l : Level) (s : State) :
    (setOutput l s).errChar = s.errChar := rfl

@[simp] theorem setOutput_errPos (l : Level) (s : State) :
    (setOutput l s).errPos = s.errPos := rfl

@[simp] theorem setOutput_tx (l : Level) (s : State) :
    (setOutput l s).tx = l := rfl

@[simp] theorem setOutput_en (l : Level) (s : State) :
    (setOutput l s).en = s.en := rfl

@[simp] theorem setOutput_trace (l : Level) (s : State) :
    (setOutput l s).trace = s.trace ++ [.set l] := rfl

@[simp] theorem setOutput_host (l : Level) (s : State) :
    (setOutput l s).host = s.host := rfl

@[simp] theorem setOutput_draws (l : Level) (s : State) :
    (setOutput l s).draws = s.draws := rfl

/-! ### `delay`: `delay` -/

@[simp] theorem delay_cfg (d : Nat) (s : State) :
    (delay d s).cfg = s.cfg := rfl

@[simp] theorem delay_phase (d : Nat) (s : State) :
    (delay d s).phase = s.phase := rfl

@[simp] theorem delay_cmd (d : Nat) (s : State) :
    (delay d s).cmd = s.cmd := rfl

@[simp] theorem delay_lenOk (d : Nat) (s : State) :
    (delay d s).lenOk = s.lenOk := rfl

@[simp] theorem delay_addr (d : Nat) (s : State) :
    (delay d s).addr = s.addr := rfl

@[simp] theorem delay_chan (d : Nat) (s : State) :
    (delay d s).chan = s.chan := rfl

@[simp] theorem delay_swState (d : Nat) (s : State) :
    (delay d s).swState = s.swState := rfl

@[simp] theorem delay_cw (d : Nat) (s : State) :
    (delay d s).cw = s.cw := rfl

@[simp] theorem delay_cwOk (d : Nat) (s : State) :
    (delay d s).cwOk = s.cwOk := rfl

@[simp] theorem delay_seq (d : Nat) (s : State) :
    (delay d s).seq = s.seq := rfl

@[simp] theorem delay_result (d : Nat) (s : State) :
    (delay d s).result = s.result := rfl

@[simp] theorem delay_errChar (d : Nat) (s : State) :
    (delay d s).errChar = s.errChar := rfl

@[simp] theorem delay_errPos (d : Nat) (s : State) :
    (delay d s).errPos = s.errPos := rfl

@[simp] theorem delay_tx (d : Nat) (s : State) :
    (delay d s).tx = s.tx := rfl

@[simp] theorem delay_en (d : Nat) (s : State) :
    (delay d s).en = s.en := rfl

@[simp] theorem delay_trace (d : Nat) (s : State) :
    (delay d s).trace = s.trace ++ [.delay d] := rfl

@[simp] theorem delay_host (d : Nat) (s : State) :
    (delay d s).host = s.host := rfl

@[simp] theorem delay_draws (d : Nat) (s : State) :
    (delay d s).draws = s.draws := rfl

/-! ### `SEQ <- target`: `setSeq` -/

@[simp] theorem setSeq_cfg (q : Seq) (s : State) :
    (setSeq q s).cfg = s.cfg := rfl

@[simp] theorem setSeq_phase (q : Seq) (s : State) :
    (setSeq q s).phase = s.phase := rfl

@[simp] theorem setSeq_cmd (q : Seq) (s : State) :
    (setSeq q s).cmd = s.cmd := rfl

@[simp] theorem setSeq_lenOk (q : Seq) (s : State) :
    (setSeq q s).lenOk = s.lenOk := rfl

@[simp] theorem setSeq_addr (q : Seq) (s : State) :
    (setSeq q s).addr = s.addr := rfl

@[simp] theorem setSeq_chan (q : Seq) (s : State) :
    (setSeq q s).chan = s.chan := rfl

@[simp] theorem setSeq_swState (q : Seq) (s : State) :
    (setSeq q s).swState = s.swState := rfl

@[simp] theorem setSeq_cw (q : Seq) (s : State) :
    (setSeq q s).cw = s.cw := rfl

@[simp] theorem setSeq_cwOk (q : Seq) (s : State) :
    (setSeq q s).cwOk = s.cwOk := rfl

@[simp] theorem setSeq_seq (q : Seq) (s : State) :
    (setSeq q s).seq = q := rfl

@[simp] theorem setSeq_result (q : Seq) (s : State) :
    (setSeq q s).result = s.result := rfl

@[simp] theorem setSeq_errChar (q : Seq) (s : State) :
    (setSeq q s).errChar = s.errChar := rfl

@[simp] theorem setSeq_errPos (q : Seq) (s : State) :
    (setSeq q s).errPos = s.errPos := rfl

@[simp] theorem setSeq_tx (q : Seq) (s : State) :
    (setSeq q s).tx = s.tx := rfl

@[simp] theorem setSeq_en (q : Seq) (s : State) :
    (setSeq q s).en = s.en := rfl

@[simp] theorem setSeq_trace (q : Seq) (s : State) :
    (setSeq q s).trace = s.trace := rfl

@[simp] theorem setSeq_host (q : Seq) (s : State) :
    (setSeq q s).host = s.host := rfl

@[simp] theorem setSeq_draws (q : Seq) (s : State) :
    (setSeq q s).draws = s.draws := rfl

/-! ### the write of `ADDR`: `writeAddr` -/

@[simp] theorem writeAddr_cfg (a : AddrChars) (s : State) :
    (writeAddr a s).cfg = s.cfg := rfl

@[simp] theorem writeAddr_phase (a : AddrChars) (s : State) :
    (writeAddr a s).phase = s.phase := rfl

@[simp] theorem writeAddr_cmd (a : AddrChars) (s : State) :
    (writeAddr a s).cmd = s.cmd := rfl

@[simp] theorem writeAddr_lenOk (a : AddrChars) (s : State) :
    (writeAddr a s).lenOk = s.lenOk := rfl

@[simp] theorem writeAddr_addr (a : AddrChars) (s : State) :
    (writeAddr a s).addr = a := rfl

@[simp] theorem writeAddr_chan (a : AddrChars) (s : State) :
    (writeAddr a s).chan = s.chan := rfl

@[simp] theorem writeAddr_swState (a : AddrChars) (s : State) :
    (writeAddr a s).swState = s.swState := rfl

@[simp] theorem writeAddr_cw (a : AddrChars) (s : State) :
    (writeAddr a s).cw = s.cw := rfl

@[simp] theorem writeAddr_cwOk (a : AddrChars) (s : State) :
    (writeAddr a s).cwOk = s.cwOk := rfl

@[simp] theorem writeAddr_seq (a : AddrChars) (s : State) :
    (writeAddr a s).seq = s.seq := rfl

@[simp] theorem writeAddr_result (a : AddrChars) (s : State) :
    (writeAddr a s).result = s.result := rfl

@[simp] theorem writeAddr_errChar (a : AddrChars) (s : State) :
    (writeAddr a s).errChar = s.errChar := rfl

@[simp] theorem writeAddr_errPos (a : AddrChars) (s : State) :
    (writeAddr a s).errPos = s.errPos := rfl

@[simp] theorem writeAddr_tx (a : AddrChars) (s : State) :
    (writeAddr a s).tx = s.tx := rfl

@[simp] theorem writeAddr_en (a : AddrChars) (s : State) :
    (writeAddr a s).en = s.en := rfl

@[simp] theorem writeAddr_trace (a : AddrChars) (s : State) :
    (writeAddr a s).trace = s.trace := rfl

@[simp] theorem writeAddr_host (a : AddrChars) (s : State) :
    (writeAddr a s).host = s.host := rfl

@[simp] theorem writeAddr_draws (a : AddrChars) (s : State) :
    (writeAddr a s).draws = s.draws := rfl

/-! ### the unspecified `ADDR`: `spoilAddr` -/

@[simp] theorem spoilAddr_cfg (s : State) :
    (spoilAddr s).cfg = s.cfg := rfl

@[simp] theorem spoilAddr_phase (s : State) :
    (spoilAddr s).phase = s.phase := rfl

@[simp] theorem spoilAddr_cmd (s : State) :
    (spoilAddr s).cmd = s.cmd := rfl

@[simp] theorem spoilAddr_lenOk (s : State) :
    (spoilAddr s).lenOk = s.lenOk := rfl

@[simp] theorem spoilAddr_addr (s : State) :
    (spoilAddr s).addr = addrOfBits (Config.freeAddr s.draws) := rfl

@[simp] theorem spoilAddr_chan (s : State) :
    (spoilAddr s).chan = s.chan := rfl

@[simp] theorem spoilAddr_swState (s : State) :
    (spoilAddr s).swState = s.swState := rfl

@[simp] theorem spoilAddr_cw (s : State) :
    (spoilAddr s).cw = s.cw := rfl

@[simp] theorem spoilAddr_cwOk (s : State) :
    (spoilAddr s).cwOk = s.cwOk := rfl

@[simp] theorem spoilAddr_seq (s : State) :
    (spoilAddr s).seq = s.seq := rfl

@[simp] theorem spoilAddr_result (s : State) :
    (spoilAddr s).result = s.result := rfl

@[simp] theorem spoilAddr_errChar (s : State) :
    (spoilAddr s).errChar = s.errChar := rfl

@[simp] theorem spoilAddr_errPos (s : State) :
    (spoilAddr s).errPos = s.errPos := rfl

@[simp] theorem spoilAddr_tx (s : State) :
    (spoilAddr s).tx = s.tx := rfl

@[simp] theorem spoilAddr_en (s : State) :
    (spoilAddr s).en = s.en := rfl

@[simp] theorem spoilAddr_trace (s : State) :
    (spoilAddr s).trace = s.trace := rfl

@[simp] theorem spoilAddr_host (s : State) :
    (spoilAddr s).host = s.host := rfl

@[simp] theorem spoilAddr_draws (s : State) :
    (spoilAddr s).draws = s.draws + 1 := rfl

/-! ### the writes of `CHAN` and `STATE`: `writeFields` -/

@[simp] theorem writeFields_cfg (c : BitVec 3) (on : Bool) (s : State) :
    (writeFields c on s).cfg = s.cfg := rfl

@[simp] theorem writeFields_phase (c : BitVec 3) (on : Bool) (s : State) :
    (writeFields c on s).phase = s.phase := rfl

@[simp] theorem writeFields_cmd (c : BitVec 3) (on : Bool) (s : State) :
    (writeFields c on s).cmd = s.cmd := rfl

@[simp] theorem writeFields_lenOk (c : BitVec 3) (on : Bool) (s : State) :
    (writeFields c on s).lenOk = s.lenOk := rfl

@[simp] theorem writeFields_addr (c : BitVec 3) (on : Bool) (s : State) :
    (writeFields c on s).addr = s.addr := rfl

@[simp] theorem writeFields_chan (c : BitVec 3) (on : Bool) (s : State) :
    (writeFields c on s).chan = c := rfl

@[simp] theorem writeFields_swState (c : BitVec 3) (on : Bool) (s : State) :
    (writeFields c on s).swState = on := rfl

@[simp] theorem writeFields_cw (c : BitVec 3) (on : Bool) (s : State) :
    (writeFields c on s).cw = s.cw := rfl

@[simp] theorem writeFields_cwOk (c : BitVec 3) (on : Bool) (s : State) :
    (writeFields c on s).cwOk = s.cwOk := rfl

@[simp] theorem writeFields_seq (c : BitVec 3) (on : Bool) (s : State) :
    (writeFields c on s).seq = s.seq := rfl

@[simp] theorem writeFields_result (c : BitVec 3) (on : Bool) (s : State) :
    (writeFields c on s).result = s.result := rfl

@[simp] theorem writeFields_errChar (c : BitVec 3) (on : Bool) (s : State) :
    (writeFields c on s).errChar = s.errChar := rfl

@[simp] theorem writeFields_errPos (c : BitVec 3) (on : Bool) (s : State) :
    (writeFields c on s).errPos = s.errPos := rfl

@[simp] theorem writeFields_tx (c : BitVec 3) (on : Bool) (s : State) :
    (writeFields c on s).tx = s.tx := rfl

@[simp] theorem writeFields_en (c : BitVec 3) (on : Bool) (s : State) :
    (writeFields c on s).en = s.en := rfl

@[simp] theorem writeFields_trace (c : BitVec 3) (on : Bool) (s : State) :
    (writeFields c on s).trace = s.trace := rfl

@[simp] theorem writeFields_host (c : BitVec 3) (on : Bool) (s : State) :
    (writeFields c on s).host = s.host := rfl

@[simp] theorem writeFields_draws (c : BitVec 3) (on : Bool) (s : State) :
    (writeFields c on s).draws = s.draws := rfl

/-! ### the write of `CW`: `writeCw` -/

@[simp] theorem writeCw_cfg (w : Codeword) (s : State) :
    (writeCw w s).cfg = s.cfg := rfl

@[simp] theorem writeCw_phase (w : Codeword) (s : State) :
    (writeCw w s).phase = s.phase := rfl

@[simp] theorem writeCw_cmd (w : Codeword) (s : State) :
    (writeCw w s).cmd = s.cmd := rfl

@[simp] theorem writeCw_lenOk (w : Codeword) (s : State) :
    (writeCw w s).lenOk = s.lenOk := rfl

@[simp] theorem writeCw_addr (w : Codeword) (s : State) :
    (writeCw w s).addr = s.addr := rfl

@[simp] theorem writeCw_chan (w : Codeword) (s : State) :
    (writeCw w s).chan = s.chan := rfl

@[simp] theorem writeCw_swState (w : Codeword) (s : State) :
    (writeCw w s).swState = s.swState := rfl

@[simp] theorem writeCw_cw (w : Codeword) (s : State) :
    (writeCw w s).cw = w := rfl

@[simp] theorem writeCw_cwOk (w : Codeword) (s : State) :
    (writeCw w s).cwOk = true := rfl

@[simp] theorem writeCw_seq (w : Codeword) (s : State) :
    (writeCw w s).seq = s.seq := rfl

@[simp] theorem writeCw_result (w : Codeword) (s : State) :
    (writeCw w s).result = s.result := rfl

@[simp] theorem writeCw_errChar (w : Codeword) (s : State) :
    (writeCw w s).errChar = s.errChar := rfl

@[simp] theorem writeCw_errPos (w : Codeword) (s : State) :
    (writeCw w s).errPos = s.errPos := rfl

@[simp] theorem writeCw_tx (w : Codeword) (s : State) :
    (writeCw w s).tx = s.tx := rfl

@[simp] theorem writeCw_en (w : Codeword) (s : State) :
    (writeCw w s).en = s.en := rfl

@[simp] theorem writeCw_trace (w : Codeword) (s : State) :
    (writeCw w s).trace = s.trace := rfl

@[simp] theorem writeCw_host (w : Codeword) (s : State) :
    (writeCw w s).host = s.host := rfl

@[simp] theorem writeCw_draws (w : Codeword) (s : State) :
    (writeCw w s).draws = s.draws := rfl

/-! ### what a command's end leaves unspecified: `dropTransients` -/

@[simp] theorem dropTransients_cfg (s : State) :
    (dropTransients s).cfg = s.cfg := rfl

@[simp] theorem dropTransients_phase (s : State) :
    (dropTransients s).phase = s.phase := rfl

@[simp] theorem dropTransients_cmd (s : State) :
    (dropTransients s).cmd = Config.freeCmd s.draws := rfl

@[simp] theorem dropTransients_lenOk (s : State) :
    (dropTransients s).lenOk = Config.freeLenOk s.draws := rfl

@[simp] theorem dropTransients_addr (s : State) :
    (dropTransients s).addr = s.addr := rfl

@[simp] theorem dropTransients_chan (s : State) :
    (dropTransients s).chan = Config.freeChan s.draws := rfl

@[simp] theorem dropTransients_swState (s : State) :
    (dropTransients s).swState = Config.freeState s.draws := rfl

@[simp] theorem dropTransients_cw (s : State) :
    (dropTransients s).cw = Config.freeCw s.draws := rfl

@[simp] theorem dropTransients_cwOk (s : State) :
    (dropTransients s).cwOk = Config.freeCwOk s.draws := rfl

@[simp] theorem dropTransients_seq (s : State) :
    (dropTransients s).seq = s.seq := rfl

@[simp] theorem dropTransients_result (s : State) :
    (dropTransients s).result = s.result := rfl

@[simp] theorem dropTransients_errChar (s : State) :
    (dropTransients s).errChar = s.errChar := rfl

@[simp] theorem dropTransients_errPos (s : State) :
    (dropTransients s).errPos = s.errPos := rfl

@[simp] theorem dropTransients_tx (s : State) :
    (dropTransients s).tx = s.tx := rfl

@[simp] theorem dropTransients_en (s : State) :
    (dropTransients s).en = s.en := rfl

@[simp] theorem dropTransients_trace (s : State) :
    (dropTransients s).trace = s.trace := rfl

@[simp] theorem dropTransients_host (s : State) :
    (dropTransients s).host = s.host := rfl

@[simp] theorem dropTransients_draws (s : State) :
    (dropTransients s).draws = s.draws + 1 := rfl

/-! ### the end of a command: `endCommand` -/

@[simp] theorem endCommand_cfg (r : Result) (c : Byte) (p : BitVec 3) (s : State) :
    (endCommand r c p s).cfg = s.cfg := rfl

@[simp] theorem endCommand_phase (r : Result) (c : Byte) (p : BitVec 3) (s : State) :
    (endCommand r c p s).phase = s.phase := rfl

@[simp] theorem endCommand_cmd (r : Result) (c : Byte) (p : BitVec 3) (s : State) :
    (endCommand r c p s).cmd = Config.freeCmd s.draws := rfl

@[simp] theorem endCommand_lenOk (r : Result) (c : Byte) (p : BitVec 3) (s : State) :
    (endCommand r c p s).lenOk = Config.freeLenOk s.draws := rfl

@[simp] theorem endCommand_addr (r : Result) (c : Byte) (p : BitVec 3) (s : State) :
    (endCommand r c p s).addr = s.addr := rfl

@[simp] theorem endCommand_chan (r : Result) (c : Byte) (p : BitVec 3) (s : State) :
    (endCommand r c p s).chan = Config.freeChan s.draws := rfl

@[simp] theorem endCommand_swState (r : Result) (c : Byte) (p : BitVec 3) (s : State) :
    (endCommand r c p s).swState = Config.freeState s.draws := rfl

@[simp] theorem endCommand_cw (r : Result) (c : Byte) (p : BitVec 3) (s : State) :
    (endCommand r c p s).cw = Config.freeCw s.draws := rfl

@[simp] theorem endCommand_cwOk (r : Result) (c : Byte) (p : BitVec 3) (s : State) :
    (endCommand r c p s).cwOk = Config.freeCwOk s.draws := rfl

@[simp] theorem endCommand_seq (r : Result) (c : Byte) (p : BitVec 3) (s : State) :
    (endCommand r c p s).seq = .idle := rfl

@[simp] theorem endCommand_result (r : Result) (c : Byte) (p : BitVec 3) (s : State) :
    (endCommand r c p s).result = r := rfl

@[simp] theorem endCommand_errChar (r : Result) (c : Byte) (p : BitVec 3) (s : State) :
    (endCommand r c p s).errChar = c := rfl

@[simp] theorem endCommand_errPos (r : Result) (c : Byte) (p : BitVec 3) (s : State) :
    (endCommand r c p s).errPos = p := rfl

@[simp] theorem endCommand_tx (r : Result) (c : Byte) (p : BitVec 3) (s : State) :
    (endCommand r c p s).tx = s.tx := rfl

@[simp] theorem endCommand_en (r : Result) (c : Byte) (p : BitVec 3) (s : State) :
    (endCommand r c p s).en = s.en := rfl

@[simp] theorem endCommand_trace (r : Result) (c : Byte) (p : BitVec 3) (s : State) :
    (endCommand r c p s).trace = s.trace := rfl

@[simp] theorem endCommand_host (r : Result) (c : Byte) (p : BitVec 3) (s : State) :
    (endCommand r c p s).host = s.host := rfl

@[simp] theorem endCommand_draws (r : Result) (c : Byte) (p : BitVec 3) (s : State) :
    (endCommand r c p s).draws = s.draws + 1 := rfl

/-! ### `raise`: `raise` -/

@[simp] theorem raise_cfg (e : CmdError) (s : State) :
    (raise e s).cfg = s.cfg := rfl

@[simp] theorem raise_phase (e : CmdError) (s : State) :
    (raise e s).phase = s.phase := rfl

@[simp] theorem raise_cmd (e : CmdError) (s : State) :
    (raise e s).cmd = Config.freeCmd s.draws := rfl

@[simp] theorem raise_lenOk (e : CmdError) (s : State) :
    (raise e s).lenOk = Config.freeLenOk s.draws := rfl

@[simp] theorem raise_addr (e : CmdError) (s : State) :
    (raise e s).addr = s.addr := rfl

@[simp] theorem raise_chan (e : CmdError) (s : State) :
    (raise e s).chan = Config.freeChan s.draws := rfl

@[simp] theorem raise_swState (e : CmdError) (s : State) :
    (raise e s).swState = Config.freeState s.draws := rfl

@[simp] theorem raise_cw (e : CmdError) (s : State) :
    (raise e s).cw = Config.freeCw s.draws := rfl

@[simp] theorem raise_cwOk (e : CmdError) (s : State) :
    (raise e s).cwOk = Config.freeCwOk s.draws := rfl

@[simp] theorem raise_seq (e : CmdError) (s : State) :
    (raise e s).seq = .idle := rfl

@[simp] theorem raise_result (e : CmdError) (s : State) :
    (raise e s).result = resultOf e := rfl

@[simp] theorem raise_errChar (e : CmdError) (s : State) :
    (raise e s).errChar = errCharOf e := rfl

@[simp] theorem raise_errPos (e : CmdError) (s : State) :
    (raise e s).errPos = errPosOf e := rfl

@[simp] theorem raise_tx (e : CmdError) (s : State) :
    (raise e s).tx = s.tx := rfl

@[simp] theorem raise_en (e : CmdError) (s : State) :
    (raise e s).en = s.en := rfl

@[simp] theorem raise_trace (e : CmdError) (s : State) :
    (raise e s).trace = s.trace := rfl

@[simp] theorem raise_host (e : CmdError) (s : State) :
    (raise e s).host = s.host := rfl

@[simp] theorem raise_draws (e : CmdError) (s : State) :
    (raise e s).draws = s.draws + 1 := rfl

/-! ### the end of an accepted command: `completeCommand` -/

@[simp] theorem completeCommand_cfg (s : State) :
    (completeCommand s).cfg = s.cfg := rfl

@[simp] theorem completeCommand_phase (s : State) :
    (completeCommand s).phase = s.phase := rfl

@[simp] theorem completeCommand_cmd (s : State) :
    (completeCommand s).cmd = Config.freeCmd s.draws := rfl

@[simp] theorem completeCommand_lenOk (s : State) :
    (completeCommand s).lenOk = Config.freeLenOk s.draws := rfl

@[simp] theorem completeCommand_addr (s : State) :
    (completeCommand s).addr = s.addr := rfl

@[simp] theorem completeCommand_chan (s : State) :
    (completeCommand s).chan = Config.freeChan s.draws := rfl

@[simp] theorem completeCommand_swState (s : State) :
    (completeCommand s).swState = Config.freeState s.draws := rfl

@[simp] theorem completeCommand_cw (s : State) :
    (completeCommand s).cw = Config.freeCw s.draws := rfl

@[simp] theorem completeCommand_cwOk (s : State) :
    (completeCommand s).cwOk = Config.freeCwOk s.draws := rfl

@[simp] theorem completeCommand_seq (s : State) :
    (completeCommand s).seq = .idle := rfl

@[simp] theorem completeCommand_result (s : State) :
    (completeCommand s).result = .ok := rfl

@[simp] theorem completeCommand_errChar (s : State) :
    (completeCommand s).errChar = 0#8 := rfl

@[simp] theorem completeCommand_errPos (s : State) :
    (completeCommand s).errPos = 0#3 := rfl

@[simp] theorem completeCommand_tx (s : State) :
    (completeCommand s).tx = s.tx := rfl

@[simp] theorem completeCommand_en (s : State) :
    (completeCommand s).en = s.en := rfl

@[simp] theorem completeCommand_trace (s : State) :
    (completeCommand s).trace = s.trace := rfl

@[simp] theorem completeCommand_host (s : State) :
    (completeCommand s).host = s.host := rfl

@[simp] theorem completeCommand_draws (s : State) :
    (completeCommand s).draws = s.draws + 1 := rfl

/-! ### the high half of a pulse: `highHalf` -/

@[simp] theorem highHalf_cfg (p : Pulse) (s : State) :
    (highHalf p s).cfg = s.cfg := rfl

@[simp] theorem highHalf_phase (p : Pulse) (s : State) :
    (highHalf p s).phase = s.phase := rfl

@[simp] theorem highHalf_cmd (p : Pulse) (s : State) :
    (highHalf p s).cmd = s.cmd := rfl

@[simp] theorem highHalf_lenOk (p : Pulse) (s : State) :
    (highHalf p s).lenOk = s.lenOk := rfl

@[simp] theorem highHalf_addr (p : Pulse) (s : State) :
    (highHalf p s).addr = s.addr := rfl

@[simp] theorem highHalf_chan (p : Pulse) (s : State) :
    (highHalf p s).chan = s.chan := rfl

@[simp] theorem highHalf_swState (p : Pulse) (s : State) :
    (highHalf p s).swState = s.swState := rfl

@[simp] theorem highHalf_cw (p : Pulse) (s : State) :
    (highHalf p s).cw = s.cw := rfl

@[simp] theorem highHalf_cwOk (p : Pulse) (s : State) :
    (highHalf p s).cwOk = s.cwOk := rfl

@[simp] theorem highHalf_seq (p : Pulse) (s : State) :
    (highHalf p s).seq = s.seq := rfl

@[simp] theorem highHalf_result (p : Pulse) (s : State) :
    (highHalf p s).result = s.result := rfl

@[simp] theorem highHalf_errChar (p : Pulse) (s : State) :
    (highHalf p s).errChar = s.errChar := rfl

@[simp] theorem highHalf_errPos (p : Pulse) (s : State) :
    (highHalf p s).errPos = s.errPos := rfl

@[simp] theorem highHalf_tx (p : Pulse) (s : State) :
    (highHalf p s).tx = .high := rfl

@[simp] theorem highHalf_en (p : Pulse) (s : State) :
    (highHalf p s).en = s.en := rfl

@[simp] theorem highHalf_trace (p : Pulse) (s : State) :
    (highHalf p s).trace = s.trace ++ [.set .high, .delay (p.high * s.cfg.tUnit)] := by
  simp [highHalf]

@[simp] theorem highHalf_host (p : Pulse) (s : State) :
    (highHalf p s).host = s.host := rfl

@[simp] theorem highHalf_draws (p : Pulse) (s : State) :
    (highHalf p s).draws = s.draws := rfl

/-! ### the low half of a pulse: `lowHalf` -/

@[simp] theorem lowHalf_cfg (p : Pulse) (s : State) :
    (lowHalf p s).cfg = s.cfg := rfl

@[simp] theorem lowHalf_phase (p : Pulse) (s : State) :
    (lowHalf p s).phase = s.phase := rfl

@[simp] theorem lowHalf_cmd (p : Pulse) (s : State) :
    (lowHalf p s).cmd = s.cmd := rfl

@[simp] theorem lowHalf_lenOk (p : Pulse) (s : State) :
    (lowHalf p s).lenOk = s.lenOk := rfl

@[simp] theorem lowHalf_addr (p : Pulse) (s : State) :
    (lowHalf p s).addr = s.addr := rfl

@[simp] theorem lowHalf_chan (p : Pulse) (s : State) :
    (lowHalf p s).chan = s.chan := rfl

@[simp] theorem lowHalf_swState (p : Pulse) (s : State) :
    (lowHalf p s).swState = s.swState := rfl

@[simp] theorem lowHalf_cw (p : Pulse) (s : State) :
    (lowHalf p s).cw = s.cw := rfl

@[simp] theorem lowHalf_cwOk (p : Pulse) (s : State) :
    (lowHalf p s).cwOk = s.cwOk := rfl

@[simp] theorem lowHalf_seq (p : Pulse) (s : State) :
    (lowHalf p s).seq = s.seq := rfl

@[simp] theorem lowHalf_result (p : Pulse) (s : State) :
    (lowHalf p s).result = s.result := rfl

@[simp] theorem lowHalf_errChar (p : Pulse) (s : State) :
    (lowHalf p s).errChar = s.errChar := rfl

@[simp] theorem lowHalf_errPos (p : Pulse) (s : State) :
    (lowHalf p s).errPos = s.errPos := rfl

@[simp] theorem lowHalf_tx (p : Pulse) (s : State) :
    (lowHalf p s).tx = .low := rfl

@[simp] theorem lowHalf_en (p : Pulse) (s : State) :
    (lowHalf p s).en = s.en := rfl

@[simp] theorem lowHalf_trace (p : Pulse) (s : State) :
    (lowHalf p s).trace = s.trace ++ [.set .low, .delay (p.low * s.cfg.tUnit)] := by
  simp [lowHalf]

@[simp] theorem lowHalf_host (p : Pulse) (s : State) :
    (lowHalf p s).host = s.host := rfl

@[simp] theorem lowHalf_draws (p : Pulse) (s : State) :
    (lowHalf p s).draws = s.draws := rfl

/-! ### a whole pulse (R168): `pulse` -/

@[simp] theorem pulse_cfg (p : Pulse) (s : State) :
    (pulse p s).cfg = s.cfg := rfl

@[simp] theorem pulse_phase (p : Pulse) (s : State) :
    (pulse p s).phase = s.phase := rfl

@[simp] theorem pulse_cmd (p : Pulse) (s : State) :
    (pulse p s).cmd = s.cmd := rfl

@[simp] theorem pulse_lenOk (p : Pulse) (s : State) :
    (pulse p s).lenOk = s.lenOk := rfl

@[simp] theorem pulse_addr (p : Pulse) (s : State) :
    (pulse p s).addr = s.addr := rfl

@[simp] theorem pulse_chan (p : Pulse) (s : State) :
    (pulse p s).chan = s.chan := rfl

@[simp] theorem pulse_swState (p : Pulse) (s : State) :
    (pulse p s).swState = s.swState := rfl

@[simp] theorem pulse_cw (p : Pulse) (s : State) :
    (pulse p s).cw = s.cw := rfl

@[simp] theorem pulse_cwOk (p : Pulse) (s : State) :
    (pulse p s).cwOk = s.cwOk := rfl

@[simp] theorem pulse_seq (p : Pulse) (s : State) :
    (pulse p s).seq = s.seq := rfl

@[simp] theorem pulse_result (p : Pulse) (s : State) :
    (pulse p s).result = s.result := rfl

@[simp] theorem pulse_errChar (p : Pulse) (s : State) :
    (pulse p s).errChar = s.errChar := rfl

@[simp] theorem pulse_errPos (p : Pulse) (s : State) :
    (pulse p s).errPos = s.errPos := rfl

@[simp] theorem pulse_tx (p : Pulse) (s : State) :
    (pulse p s).tx = .low := rfl

@[simp] theorem pulse_en (p : Pulse) (s : State) :
    (pulse p s).en = s.en := rfl

@[simp] theorem pulse_trace (p : Pulse) (s : State) :
    (pulse p s).trace = s.trace ++ [.set .high, .delay (p.high * s.cfg.tUnit), .set .low, .delay (p.low * s.cfg.tUnit)] := by
  simp [pulse]

@[simp] theorem pulse_host (p : Pulse) (s : State) :
    (pulse p s).host = s.host := rfl

@[simp] theorem pulse_draws (p : Pulse) (s : State) :
    (pulse p s).draws = s.draws := rfl

/-! ### The latch of a submission: `latchCommand` -/

@[simp] theorem latchCommand_cfg (bs : List Byte) (s : State) :
    (latchCommand bs s).cfg = s.cfg := by
  unfold latchCommand; split <;> rfl

@[simp] theorem latchCommand_phase (bs : List Byte) (s : State) :
    (latchCommand bs s).phase = s.phase := by
  unfold latchCommand; split <;> rfl

@[simp] theorem latchCommand_addr (bs : List Byte) (s : State) :
    (latchCommand bs s).addr = s.addr := by
  unfold latchCommand; split <;> rfl

@[simp] theorem latchCommand_chan (bs : List Byte) (s : State) :
    (latchCommand bs s).chan = s.chan := by
  unfold latchCommand; split <;> rfl

@[simp] theorem latchCommand_swState (bs : List Byte) (s : State) :
    (latchCommand bs s).swState = s.swState := by
  unfold latchCommand; split <;> rfl

@[simp] theorem latchCommand_cw (bs : List Byte) (s : State) :
    (latchCommand bs s).cw = s.cw := by
  unfold latchCommand; split <;> rfl

@[simp] theorem latchCommand_cwOk (bs : List Byte) (s : State) :
    (latchCommand bs s).cwOk = s.cwOk := by
  unfold latchCommand; split <;> rfl

@[simp] theorem latchCommand_seq (bs : List Byte) (s : State) :
    (latchCommand bs s).seq = .parse := by
  unfold latchCommand; split <;> rfl

@[simp] theorem latchCommand_result (bs : List Byte) (s : State) :
    (latchCommand bs s).result = s.result := by
  unfold latchCommand; split <;> rfl

@[simp] theorem latchCommand_errChar (bs : List Byte) (s : State) :
    (latchCommand bs s).errChar = s.errChar := by
  unfold latchCommand; split <;> rfl

@[simp] theorem latchCommand_errPos (bs : List Byte) (s : State) :
    (latchCommand bs s).errPos = s.errPos := by
  unfold latchCommand; split <;> rfl

@[simp] theorem latchCommand_tx (bs : List Byte) (s : State) :
    (latchCommand bs s).tx = s.tx := by
  unfold latchCommand; split <;> rfl

@[simp] theorem latchCommand_en (bs : List Byte) (s : State) :
    (latchCommand bs s).en = s.en := by
  unfold latchCommand; split <;> rfl

@[simp] theorem latchCommand_trace (bs : List Byte) (s : State) :
    (latchCommand bs s).trace = s.trace := by
  unfold latchCommand; split <;> rfl

@[simp] theorem latchCommand_host (bs : List Byte) (s : State) :
    (latchCommand bs s).host = s.host := by
  unfold latchCommand; split <;> rfl

/-- With seven characters or more the latch takes the first seven (R24). -/
theorem latchCommand_some (bs : List Byte) (s : State) (cmd : Vector Byte 7)
    (h : firstSeven bs = some cmd) :
    latchCommand bs s = { s with cmd := cmd, lenOk := true, seq := .parse } := by
  simp [latchCommand, h]

/-- With fewer characters `LEN_OK` is 0 and `CMD` is a free value (R24). -/
theorem latchCommand_none (bs : List Byte) (s : State) (h : firstSeven bs = none) :
    latchCommand bs s =
      { s with cmd := Config.freeCmd s.draws, lenOk := false, seq := .parse, draws := s.draws + 1 } := by
  simp [latchCommand, h]

end Sys2Proof.Machine
end

