-- ==== Sys2Proof/Laws/Command.lean ====
section
/-! SUPPORT. What the parsing step of a command does (40_command_parser.md R118): one lemma for a well-formed
address, one for an ill-formed one, one for each way of being rejected; and exec over both families. -/

namespace Sys2Proof.Machine

/-- The channel row of a letter, as `CHROM` holds it (R51, R83). -/
def letterRow : Letter → Vector Symbol 5
  | .a => #v[.s0, .sf, .sf, .sf, .sf]
  | .b => #v[.sf, .s0, .sf, .sf, .sf]
  | .c => #v[.sf, .sf, .s0, .sf, .sf]
  | .d => #v[.sf, .sf, .sf, .s0, .sf]

theorem chRom_channelOf (l : Letter) : chRom (channelOf l) = some (letterRow l) := by
  cases l <;> rfl

/-- The codeword of a command (R120 to R127). -/
def commandCodeword (l : Letter) (on : Bool) (a : AddrChars) : Codeword :=
  joinCodeword #v[addrSymbol a[0], addrSymbol a[1], addrSymbol a[2], addrSymbol a[3], addrSymbol a[4]]
    (letterRow l) (stRom on)

theorem encodeCodeword_command (l : Letter) (on : Bool) (a : AddrChars) (h : wfAddr a = true) :
    encodeCodeword a (channelOf l) on = some (commandCodeword l on a) :=
  encodeCodeword_of_valid a (channelOf l) on (letterRow l) h (channelInRange_channelOf l)
    (chRom_channelOf l)

/-- The encoder refuses an ill-formed address whatever the channel (R141). -/
theorem encodeCodeword_of_not_wf (a : AddrChars) (c : BitVec 3) (on : Bool) (h : wfAddr a = false) :
    encodeCodeword a c on = none := by
  unfold encodeCodeword
  split
  · simp [encodeAddr_of_not_wf a h]
  · rfl

/-- The parsing step of a well-formed command: the fields and the codeword are written and the sequencer enters the
transmission; nothing else changes (R118, R173). -/
theorem acceptCommand_of_wf (l : Letter) (on : Bool) (a : AddrChars) (s : State)
    (h : wfAddr a = true) :
    acceptCommand l on a s =
      { s with
        addr := a, chan := channelOf l, swState := on, cw := commandCodeword l on a, cwOk := true,
        seq := .tx 0 (.data 0 0) .h } := by
  simp only [acceptCommand, writeFields, writeAddr, encodeCodeword_command l on a h]
  rfl

/-- With an ill-formed address the encoder refuses and `InvalidEncoding` is raised (R117). -/
theorem acceptCommand_of_not_wf (l : Letter) (on : Bool) (a : AddrChars) (s : State)
    (h : wfAddr a = false) :
    acceptCommand l on a s =
      raise .invalidEncoding
        { writeFields (channelOf l) on (writeAddr a s) with cwOk := false } := by
  simp only [acceptCommand, writeFields, writeAddr, encodeCodeword_of_not_wf a _ on h]

theorem exec_commandInstr (l : Letter) (on : Bool) (a : AddrChars) (s : State) :
    exec (commandInstr l on a) s = .next (acceptCommand l on a s) := by
  cases l <;> cases on <;> rfl

theorem exec_decodeSymbol (y : Symbol) (s : State) :
    exec (decodeSymbol y) s = .next (stepSymbol y s) := by
  cases y <;> rfl

/-- Every instruction is a command or a symbol operation. -/
theorem Instr.family (i : Instr) :
    (∃ l on a, i = commandInstr l on a) ∨ ∃ y, i = decodeSymbol y := by
  cases i with
  | swAOff a => exact .inl ⟨.a, false, a, rfl⟩
  | swAOn a => exact .inl ⟨.a, true, a, rfl⟩
  | swBOff a => exact .inl ⟨.b, false, a, rfl⟩
  | swBOn a => exact .inl ⟨.b, true, a, rfl⟩
  | swCOff a => exact .inl ⟨.c, false, a, rfl⟩
  | swCOn a => exact .inl ⟨.c, true, a, rfl⟩
  | swDOff a => exact .inl ⟨.d, false, a, rfl⟩
  | swDOn a => exact .inl ⟨.d, true, a, rfl⟩
  | tx0 => exact .inr ⟨.s0, rfl⟩
  | tx1 => exact .inr ⟨.s1, rfl⟩
  | txF => exact .inr ⟨.sf, rfl⟩
  | txNop => exact .inr ⟨.other, rfl⟩

/-- Every way a rejection can go: the error's registers, and what `ADDR` then holds (R25, R191 to R195). -/
theorem rejectCommand_cases (e : CmdError) (s : State) :
    rejectCommand e s = raise e s ∧ (e = .invalidLength ∨ e = .invalidEncoding) ∨
    rejectCommand e s = raise e (spoilAddr s) ∧ (∃ c p, e = .invalidAddressChar c p) ∨
    rejectCommand e s = raise e (writeAddr (addrField s.cmd) s) ∧
      ((∃ c, e = .invalidChannelChar c) ∨ ∃ c, e = .invalidStateChar c) := by
  cases e <;> simp [rejectCommand]

@[simp] theorem rejectCommand_result (e : CmdError) (s : State) :
    (rejectCommand e s).result = resultOf e := by
  cases e <;> rfl

@[simp] theorem rejectCommand_errChar (e : CmdError) (s : State) :
    (rejectCommand e s).errChar = errCharOf e := by
  cases e <;> rfl

@[simp] theorem rejectCommand_errPos (e : CmdError) (s : State) :
    (rejectCommand e s).errPos = errPosOf e := by
  cases e <;> rfl

@[simp] theorem rejectCommand_seq (e : CmdError) (s : State) : (rejectCommand e s).seq = .idle := by
  cases e <;> rfl

@[simp] theorem rejectCommand_trace (e : CmdError) (s : State) :
    (rejectCommand e s).trace = s.trace := by
  cases e <;> rfl

@[simp] theorem rejectCommand_tx (e : CmdError) (s : State) : (rejectCommand e s).tx = s.tx := by
  cases e <;> rfl

@[simp] theorem rejectCommand_en (e : CmdError) (s : State) : (rejectCommand e s).en = s.en := by
  cases e <;> rfl

@[simp] theorem rejectCommand_cfg (e : CmdError) (s : State) : (rejectCommand e s).cfg = s.cfg := by
  cases e <;> rfl

@[simp] theorem rejectCommand_phase (e : CmdError) (s : State) :
    (rejectCommand e s).phase = s.phase := by
  cases e <;> rfl

@[simp] theorem rejectCommand_host (e : CmdError) (s : State) :
    (rejectCommand e s).host = s.host := by
  cases e <;> rfl

/-- The free address is made of address characters (R25 (3)). -/
theorem wfAddr_addrOfBits (v : Vector Bool 5) : wfAddr (addrOfBits v) = true := by
  simp [wfAddr, addrOfBits, isAddrChar_stateChar]

end Sys2Proof.Machine
end

