-- ==== Sys2Proof/Laws/PerInstr.lean ====
section
/-! SUPPORT. The statement made for every instruction, one lemma a constructor: an instruction's encoded word is an
instance of its own row of spec/opcode_table.json, `(w & mask) = match` (30_encoding.md R86, R87, R88). -/

namespace Sys2Proof

/-- Five characters make an address, in order. -/
theorem AddrChars.eta (a : AddrChars) : a = #v[a[0], a[1], a[2], a[3], a[4]] := by
  obtain ⟨⟨l⟩, hl⟩ := a
  match l, hl with
  | [_, _, _, _, _], _ => rfl

/-- A well-formed address is five state characters, one for each binary symbol (R82). -/
theorem AddrChars.of_wf (a : AddrChars) (h : wfAddr a = true) :
    ∃ b0 b1 b2 b3 b4 : Bool,
      a = #v[stateChar b0, stateChar b1, stateChar b2, stateChar b3, stateChar b4] := by
  have hb : ∀ c : Byte, isAddrChar c = true → ∃ b, c = stateChar b := fun c hc => by
    rcases (isAddrChar_iff c).1 hc with rfl | rfl
    exacts [⟨false, rfl⟩, ⟨true, rfl⟩]
  simp only [wfAddr, Bool.and_eq_true] at h
  obtain ⟨⟨⟨⟨h0, h1⟩, h2⟩, h3⟩, h4⟩ := h
  obtain ⟨b0, e0⟩ := hb _ h0
  obtain ⟨b1, e1⟩ := hb _ h1
  obtain ⟨b2, e2⟩ := hb _ h2
  obtain ⟨b3, e3⟩ := hb _ h3
  obtain ⟨b4, e4⟩ := hb _ h4
  exact ⟨b0, b1, b2, b3, b4, by rw [AddrChars.eta a, e0, e1, e2, e3, e4]⟩

end Sys2Proof

namespace Sys2Proof.Laws.TableRow

/-- A well-formed instruction's word matches its row of the opcode table. -/
def Statement (i : Instr) : Prop :=
  i.wf = true → i.tableWord &&& i.tableMask = i.tableMatch

/-- The eight commands, over the 32 addresses. -/
theorem command (l : Letter) (on : Bool) (a : AddrChars) : Statement (commandInstr l on a) := by
  intro h
  rw [commandInstr_wf] at h
  obtain ⟨b0, b1, b2, b3, b4, rfl⟩ := AddrChars.of_wf a h
  clear h
  revert b0 b1 b2 b3 b4
  cases l <;> cases on <;> decide

theorem swAOff (a : AddrChars) : Statement (.swAOff a) := command .a false a

theorem swAOn (a : AddrChars) : Statement (.swAOn a) := command .a true a

theorem swBOff (a : AddrChars) : Statement (.swBOff a) := command .b false a

theorem swBOn (a : AddrChars) : Statement (.swBOn a) := command .b true a

theorem swCOff (a : AddrChars) : Statement (.swCOff a) := command .c false a

theorem swCOn (a : AddrChars) : Statement (.swCOn a) := command .c true a

theorem swDOff (a : AddrChars) : Statement (.swDOff a) := command .d false a

theorem swDOn (a : AddrChars) : Statement (.swDOn a) := command .d true a

theorem tx0 : Statement .tx0 := fun _ => by decide

theorem tx1 : Statement .tx1 := fun _ => by decide

theorem txF : Statement .txF := fun _ => by decide

theorem txNop : Statement .txNop := fun _ => by decide

end Sys2Proof.Laws.TableRow
end

