-- ==== Sys2Proof/Laws/Step.lean ====
section
/-! SUPPORT. What one step of the block is at each sequencer position, the cases of a step, and runs of steps. -/

namespace Sys2Proof.Machine

/-! ### The position names the step -/

theorem blockStep_idle (s : State) (h : s.seq = .idle) : blockStep s = .next s := by
  simp [blockStep, fetch, h]

theorem blockStep_accept (s : State) (i : Instr) (h : s.seq = .parse)
    (hd : decodeLatched s.lenOk s.cmd = .ok i) : blockStep s = exec i s := by
  simp [blockStep, fetch, h, hd]

theorem blockStep_reject (s : State) (e : CmdError) (h : s.seq = .parse)
    (hd : decodeLatched s.lenOk s.cmd = .error e) : blockStep s = .next (rejectCommand e s) := by
  simp [blockStep, fetch, h, hd]

theorem blockStep_data (s : State) (rep : Fin 10) (sym : Fin 12) (pul : Fin 2) (half : Half)
    (h : s.seq = .tx rep (.data sym pul) half) : blockStep s = .next (stepSymbol s.cw[sym] s) := by
  simp [blockStep, fetch, h, exec_decodeSymbol]

theorem blockStep_sync (s : State) (rep : Fin 10) (half : Half) (h : s.seq = .tx rep .sync half) :
    blockStep s = .next (syncHalf rep half s) := by
  simp [blockStep, fetch, h]

/-- A latched command is decoded only when its length sufficed (R111). -/
theorem decodeLatched_ok_cases {lenOk : Bool} {cmd : Vector Byte 7} {i : Instr}
    (h : decodeLatched lenOk cmd = .ok i) :
    lenOk = true ∧ ∃ l on, wfAddr (addrField cmd) = true ∧ cmd[5] = l.char ∧
      cmd[6] = stateChar on ∧ i = commandInstr l on (addrField cmd) := by
  unfold decodeLatched at h
  split at h
  · next hl => exact ⟨hl, (decodeCommand_ok_iff cmd i).1 h⟩
  · simp at h

/-- Everything one step of the block can be, with the position it is taken at. -/
theorem blockStep_cases (s : State) :
    (s.seq = .idle ∧ blockStep s = .next s) ∨
    (∃ l on, s.seq = .parse ∧ wfAddr (addrField s.cmd) = true ∧
      blockStep s = .next (acceptCommand l on (addrField s.cmd) s)) ∨
    (∃ e, s.seq = .parse ∧ decodeLatched s.lenOk s.cmd = .error e ∧
      blockStep s = .next (rejectCommand e s)) ∨
    (∃ rep sym pul half, s.seq = .tx rep (.data sym pul) half ∧
      blockStep s = .next (stepSymbol s.cw[sym] s)) ∨
    (∃ rep half, s.seq = .tx rep .sync half ∧ blockStep s = .next (syncHalf rep half s)) := by
  cases hq : s.seq with
  | idle => exact .inl ⟨rfl, blockStep_idle s hq⟩
  | parse =>
    cases hd : decodeLatched s.lenOk s.cmd with
    | ok i =>
      obtain ⟨-, l, on, ha, -, -, rfl⟩ := decodeLatched_ok_cases hd
      refine .inr (.inl ⟨l, on, rfl, ha, ?_⟩)
      rw [blockStep_accept s _ hq hd, exec_commandInstr]
    | error e => exact .inr (.inr (.inl ⟨e, rfl, rfl, blockStep_reject s e hq hd⟩))
  | tx rep slot half =>
    cases slot with
    | data sym pul =>
      exact .inr (.inr (.inr (.inl ⟨rep, sym, pul, half, rfl, blockStep_data s _ _ _ _ hq⟩)))
    | sync => exact .inr (.inr (.inr (.inr ⟨rep, half, rfl, blockStep_sync s _ _ hq⟩)))

theorem stepSymbol_skip {y : Symbol} {s : State} {rep : Fin 10} {sym : Fin 12} {pul : Fin 2}
    {half : Half} (h : s.seq = .tx rep (.data sym pul) half) (hp : pulseRom y = none) :
    stepSymbol y s = setSeq (Seq.afterSymbol rep sym) s := by
  simp [stepSymbol, h, hp]

theorem stepSymbol_high {y : Symbol} {s : State} {rep : Fin 10} {sym : Fin 12} {pul : Fin 2}
    {row : Vector Pulse 2} (h : s.seq = .tx rep (.data sym pul) .h) (hp : pulseRom y = some row) :
    stepSymbol y s = setSeq (.tx rep (.data sym pul) .l) (highHalf row[pul] s) := by
  simp [stepSymbol, h, hp]

theorem stepSymbol_low {y : Symbol} {s : State} {rep : Fin 10} {sym : Fin 12} {pul : Fin 2}
    {row : Vector Pulse 2} (h : s.seq = .tx rep (.data sym pul) .l) (hp : pulseRom y = some row) :
    stepSymbol y s = setSeq (Seq.afterPulse rep sym pul) (lowHalf row[pul] s) := by
  simp [stepSymbol, h, hp]

/-- Everything a symbol's step can do at a data symbol: no event and the next symbol, or one half-pulse (R173). -/
theorem stepSymbol_cases (y : Symbol) (s : State) (rep : Fin 10) (sym : Fin 12) (pul : Fin 2)
    (half : Half) (h : s.seq = .tx rep (.data sym pul) half) :
    (pulseRom y = none ∧ stepSymbol y s = setSeq (Seq.afterSymbol rep sym) s) ∨
    (∃ row, pulseRom y = some row ∧ half = .h ∧
      stepSymbol y s = setSeq (.tx rep (.data sym pul) .l) (highHalf row[pul] s)) ∨
    (∃ row, pulseRom y = some row ∧ half = .l ∧
      stepSymbol y s = setSeq (Seq.afterPulse rep sym pul) (lowHalf row[pul] s)) := by
  cases hp : pulseRom y with
  | none => exact .inl ⟨rfl, stepSymbol_skip h hp⟩
  | some row =>
    cases half
    · exact .inr (.inl ⟨row, rfl, rfl, stepSymbol_high h hp⟩)
    · exact .inr (.inr ⟨row, rfl, rfl, stepSymbol_low h hp⟩)

/-- Where `SEQ` names no data symbol the symbol is sent whole (R163 to R166, assumption 8). -/
theorem stepSymbol_whole (y : Symbol) (s : State)
    (h : ∀ rep sym pul half, s.seq ≠ .tx rep (.data sym pul) half) : stepSymbol y s = sendSymbol y s := by
  unfold stepSymbol
  split <;> first | rfl | (next h' => exact absurd h' (h _ _ _ _))

/-- Everything the sync pulse's step can do (R173). -/
theorem syncHalf_cases (rep : Fin 10) (half : Half) (s : State) :
    (half = .h ∧ syncHalf rep half s = setSeq (.tx rep .sync .l) (highHalf syncRom s)) ∨
    (half = .l ∧ ∃ r, nextRep rep = some r ∧
      syncHalf rep half s = setSeq (Seq.repStart r) (lowHalf syncRom s)) ∨
    (half = .l ∧ nextRep rep = none ∧ syncHalf rep half s = completeCommand (lowHalf syncRom s)) := by
  cases half with
  | h => exact .inl ⟨rfl, rfl⟩
  | l =>
    cases hr : nextRep rep with
    | none => exact .inr (.inr ⟨rfl, rfl, by simp [syncHalf, hr]⟩)
    | some r => exact .inr (.inl ⟨rfl, r, rfl, by simp [syncHalf, hr]⟩)

theorem Seq.afterPulse_zero (rep : Fin 10) (sym : Fin 12) :
    Seq.afterPulse rep sym 0 = .tx rep (.data sym 1) .h := rfl

theorem Seq.afterPulse_one (rep : Fin 10) (sym : Fin 12) :
    Seq.afterPulse rep sym 1 = Seq.afterSymbol rep sym := rfl

/-- After a data symbol the sequencer is at the first half of something (R173). -/
theorem Seq.afterSymbol_cases (rep : Fin 10) (sym : Fin 12) :
    (∃ h : sym.val + 1 < 12, Seq.afterSymbol rep sym = .tx rep (.data ⟨sym.val + 1, h⟩ 0) .h) ∨
    (sym = 11 ∧ Seq.afterSymbol rep sym = .tx rep .sync .h) := by
  unfold Seq.afterSymbol
  split
  · next h => exact .inl ⟨h, rfl⟩
  · exact .inr ⟨by omega, rfl⟩

/-! ### Runs -/

@[simp] theorem runSteps_zero (s : State) : runSteps 0 s = .next s := rfl

/-- One step, then the rest of the run. -/
theorem runSteps_unfold (n : Nat) (s : State) :
    runSteps (n + 1) s =
      match step s with
      | .next t => runSteps n t
      | .fault r => .fault r
      | .refused r => .refused r := rfl

/-- It is the host's run of the machine. -/
theorem runSteps_eq_core (n : Nat) (s : State) : runSteps n s = Host.Core.run core n s := by
  induction n generalizing s with
  | zero => rfl
  | succ n ih =>
    rw [runSteps_unfold]
    cases h : step s with
    | next t =>
      have h' : core.step s = .next t := h
      simp [Host.Core.run, h', ih]
      rfl
    | fault r => cases r
    | refused r =>
      have h' : core.step s = .refused r := h
      simp [Host.Core.run, h']
      rfl

theorem runSteps_succ (n : Nat) (s t : State) (h : step s = .next t) :
    runSteps (n + 1) s = runSteps n t := by
  rw [runSteps_unfold, h]

theorem runSteps_add (m n : Nat) (s t : State) (h : runSteps m s = .next t) :
    runSteps (m + n) s = runSteps n t := by
  induction m generalizing s with
  | zero =>
    obtain rfl : s = t := by simpa using h
    simp
  | succ m ih =>
    have hs : ∃ u, step s = .next u ∧ runSteps m u = .next t := by
      rw [runSteps_unfold] at h
      split at h
      · next u hu => exact ⟨u, hu, h⟩
      · simp at h
      · simp at h
    obtain ⟨u, hu, hm⟩ := hs
    rw [Nat.add_right_comm, runSteps_succ _ s u hu]
    exact ih u hm

/-- With no host turn to come a step is the block's own. -/
theorem step_of_no_host (s : State) (h : s.host = []) : step s = blockStep s := by
  simp [step, h]

theorem step_of_wait (s : State) (rest : List HostTurn) (h : s.host = .wait :: rest) :
    step s = blockStep { s with host := rest } := by
  simp [step, h]

theorem step_of_act (s : State) (m : HostMove) (rest : List HostTurn) (h : s.host = .act m :: rest) :
    step s = hostMove m { s with host := rest } := by
  simp [step, h]

end Sys2Proof.Machine
end

