-- ==== Sys2Proof/Laws/Transmit.lean ====
section
/-! SUPPORT. The walk of the sequencer through one symbol, through the symbols of a codeword and through one
repetition (42_waveform_transmitter.md R173), each equal to the big-step operation of the same name; and what the
big-step operations do to each field of State. -/

namespace Sys2Proof.Machine

/-! ### The big-step operations and the fields -/

/-- A symbol's events are appended, and nothing but `TX` changes besides (R163 to R166). -/
theorem sendSymbol_eq (y : Symbol) (s : State) :
    sendSymbol y s =
      { s with
        trace := s.trace ++ symbolEvents s.cfg.tUnit y,
        tx := if pulseRom y = none then s.tx else .low } := by
  cases y <;> simp [sendSymbol, pulseRom, pulse, highHalf, lowHalf, delay, setOutput, symbolEvents,
    symbolPulses, pulseEvents]

theorem pulse_eq (p : Pulse) (s : State) :
    pulse p s = { s with trace := s.trace ++ pulseEvents s.cfg.tUnit p, tx := .low } := by
  simp [pulse, highHalf, lowHalf, delay, setOutput, pulseEvents]

theorem sendSymbol_setSeq (y : Symbol) (q : Seq) (s : State) :
    sendSymbol y (setSeq q s) = setSeq q (sendSymbol y s) := by
  simp only [sendSymbol_eq]; rfl

theorem sendSymbols_setSeq (ys : List Symbol) (q : Seq) (s : State) :
    sendSymbols ys (setSeq q s) = setSeq q (sendSymbols ys s) := by
  induction ys generalizing s with
  | nil => rfl
  | cons y ys ih => simp only [sendSymbols, sendSymbol_setSeq, ih]

theorem sendRepetition_setSeq (cw : Codeword) (q : Seq) (s : State) :
    sendRepetition cw (setSeq q s) = setSeq q (sendRepetition cw s) := by
  simp only [sendRepetition, sendSymbols_setSeq, pulse_eq]; rfl

/-- The symbols' events are appended in order, and no field but `TX` changes besides. -/
theorem sendSymbols_frame (ys : List Symbol) (s : State) :
    ∃ l, sendSymbols ys s =
      { s with trace := s.trace ++ ys.flatMap (symbolEvents s.cfg.tUnit), tx := l } := by
  induction ys generalizing s with
  | nil => exact ⟨s.tx, by simp [sendSymbols]⟩
  | cons y ys ih =>
    obtain ⟨l, hl⟩ := ih (sendSymbol y s)
    refine ⟨l, ?_⟩
    rw [sendSymbols, hl, sendSymbol_eq]
    simp [List.append_assoc]

theorem repetition_events (T : Nat) (cw : Codeword) :
    (repetitionPulses cw).flatMap (pulseEvents T) =
      cw.toList.flatMap (symbolEvents T) ++ pulseEvents T syncRom := by
  simp only [repetitionPulses, List.flatMap_append, List.flatMap_assoc]
  simp
  rfl

/-- A repetition appends its pulses' events and leaves the pin low (R162). -/
theorem sendRepetition_eq (cw : Codeword) (s : State) :
    sendRepetition cw s =
      { s with
        trace := s.trace ++ (repetitionPulses cw).flatMap (pulseEvents s.cfg.tUnit), tx := .low } := by
  obtain ⟨l, hl⟩ := sendSymbols_frame cw.toList s
  rw [sendRepetition, hl, pulse_eq, repetition_events]
  simp [List.append_assoc]

/-! ### The walk -/

/-- One symbol from its first half-pulse on: `symbolSteps` steps are the symbol, sent whole (R173). -/
theorem walk_symbol (s : State) (rep : Fin 10) (sym : Fin 12) (hh : s.host = [])
    (hq : s.seq = .tx rep (.data sym 0) .h) :
    runSteps (symbolSteps s.cw[sym]) s =
      .next (setSeq (Seq.afterSymbol rep sym) (sendSymbol s.cw[sym] s)) := by
  have own : ∀ t : State, t.host = [] → t.cw = s.cw → ∀ pul half,
      t.seq = .tx rep (.data sym pul) half → step t = .next (stepSymbol s.cw[sym] t) :=
    fun t ht hc pul half hs => by
      rw [step_of_no_host t ht, blockStep_data t rep sym pul half hs, hc]
  generalize s.cw[sym] = y at own ⊢
  cases hp : pulseRom y with
  | none =>
    simp only [symbolSteps, sendSymbol, hp]
    rw [runSteps_succ _ _ _ ((own s hh rfl 0 .h hq).trans (congrArg _ (stepSymbol_skip hq hp))), runSteps_zero]
  | some row =>
    have hr0 : row[(0 : Fin 2)] = row[0] := rfl
    have hr1 : row[(1 : Fin 2)] = row[1] := rfl
    simp only [symbolSteps, sendSymbol, hp]
    generalize row[0] = p0 at hr0 ⊢
    generalize row[1] = p1 at hr1 ⊢
    have e1 : step s = .next (setSeq (.tx rep (.data sym 0) .l) (highHalf p0 s)) := by
      rw [own s hh rfl 0 .h hq, stepSymbol_high hq hp, hr0]
    rw [runSteps_succ _ _ _ e1]
    generalize hs1 : setSeq (.tx rep (.data sym 0) .l) (highHalf p0 s) = s1
    have q1 : s1.seq = .tx rep (.data sym 0) .l := by simp [← hs1]
    have e2 : step s1 = .next (setSeq (.tx rep (.data sym 1) .h) (lowHalf p0 s1)) := by
      rw [own s1 (by simp [← hs1, hh]) (by simp [← hs1]) 0 .l q1, stepSymbol_low q1 hp,
        Seq.afterPulse_zero, hr0]
    rw [runSteps_succ _ _ _ e2]
    generalize hs2 : setSeq (.tx rep (.data sym 1) .h) (lowHalf p0 s1) = s2
    have q2 : s2.seq = .tx rep (.data sym 1) .h := by simp [← hs2]
    have e3 : step s2 = .next (setSeq (.tx rep (.data sym 1) .l) (highHalf p1 s2)) := by
      rw [own s2 (by simp [← hs2, ← hs1, hh]) (by simp [← hs2, ← hs1]) 1 .h q2,
        stepSymbol_high q2 hp, hr1]
    rw [runSteps_succ _ _ _ e3]
    generalize hs3 : setSeq (.tx rep (.data sym 1) .l) (highHalf p1 s2) = s3
    have q3 : s3.seq = .tx rep (.data sym 1) .l := by simp [← hs3]
    have e4 : step s3 = .next (setSeq (Seq.afterSymbol rep sym) (lowHalf p1 s3)) := by
      rw [own s3 (by simp [← hs3, ← hs2, ← hs1, hh]) (by simp [← hs3, ← hs2, ← hs1]) 1 .l q3,
        stepSymbol_low q3 hp, Seq.afterPulse_one, hr1]
    rw [runSteps_succ _ _ _ e4, runSteps_zero, ← hs3, ← hs2, ← hs1]
    rfl

/-- The symbols from `sym` on, up to the sync slot. -/
theorem walk_symbols (n : Nat) : ∀ (s : State) (rep : Fin 10) (sym : Fin 12), s.host = [] →
    s.seq = .tx rep (.data sym 0) .h → n + sym.val = 11 →
    runSteps ((s.cw.toList.drop sym.val).map symbolSteps).sum s =
      .next (setSeq (.tx rep .sync .h) (sendSymbols (s.cw.toList.drop sym.val) s)) := by
  induction n with
  | zero =>
    intro s rep sym hh hq hn
    have hd : s.cw.toList.drop sym.val = [s.cw[sym]] := by
      rw [List.drop_eq_getElem_cons (by simp), List.drop_eq_nil_of_le (by simp; omega)]
      simp
    have ha : Seq.afterSymbol rep sym = .tx rep .sync .h := by
      unfold Seq.afterSymbol; rw [dif_neg (by omega)]
    simpa [hd, sendSymbols, ha] using walk_symbol s rep sym hh hq
  | succ n ih =>
    intro s rep sym hh hq hn
    have hlt : sym.val + 1 < 12 := by omega
    have hd : s.cw.toList.drop sym.val = s.cw[sym] :: s.cw.toList.drop (sym.val + 1) := by
      rw [List.drop_eq_getElem_cons (by simp)]
      simp
    have ha : Seq.afterSymbol rep sym = .tx rep (.data ⟨sym.val + 1, hlt⟩ 0) .h := by
      unfold Seq.afterSymbol; rw [dif_pos hlt]
    have hw := walk_symbol s rep sym hh hq
    rw [ha] at hw
    rw [hd, List.map_cons, List.sum_cons, runSteps_add _ _ _ _ hw]
    have hi := ih (setSeq (.tx rep (.data ⟨sym.val + 1, hlt⟩ 0) .h) (sendSymbol s.cw[sym] s)) rep
      ⟨sym.val + 1, hlt⟩ (by rw [sendSymbol_eq]; exact hh) rfl (by simp; omega)
    have hcw : (setSeq (.tx rep (.data ⟨sym.val + 1, hlt⟩ 0) .h) (sendSymbol s.cw[sym] s)).cw =
        s.cw := by rw [sendSymbol_eq]; rfl
    rw [hcw] at hi
    rw [hi, sendSymbols_setSeq, sendSymbols]
    rfl

/-- One repetition from its start: the next one starts, or the command is complete (R161, R173). -/
theorem walk_repetition (s : State) (rep : Fin 10) (hh : s.host = []) (hq : s.seq = Seq.repStart rep) :
    runSteps (repetitionSteps s.cw) s =
      .next (match nextRep rep with
        | some r => setSeq (Seq.repStart r) (sendRepetition s.cw s)
        | none => completeCommand (sendRepetition s.cw s)) := by
  have hw := walk_symbols 11 s rep 0 hh hq rfl
  simp only [Fin.val_zero, List.drop_zero] at hw
  obtain ⟨l, hl⟩ := sendSymbols_frame s.cw.toList s
  rw [repetitionSteps, runSteps_add _ _ _ _ hw]
  generalize ht : sendSymbols s.cw.toList s = t at hl
  have hth : t.host = [] := by rw [hl]; exact hh
  have e1 : step (setSeq (.tx rep .sync .h) t) =
      .next (setSeq (.tx rep .sync .l) (highHalf syncRom (setSeq (.tx rep .sync .h) t))) := by
    rw [step_of_no_host _ (by simpa using hth), blockStep_sync _ rep .h (by simp)]
    rfl
  have e2 : step (setSeq (.tx rep .sync .l) (highHalf syncRom (setSeq (.tx rep .sync .h) t))) =
      .next (syncHalf rep .l
        (setSeq (.tx rep .sync .l) (highHalf syncRom (setSeq (.tx rep .sync .h) t)))) := by
    rw [step_of_no_host _ (by simpa using hth), blockStep_sync _ rep .l (by simp)]
  rw [runSteps_succ _ _ _ e1, runSteps_succ _ _ _ e2, runSteps_zero, sendRepetition, ht]
  cases hn : nextRep rep with
  | none => simp only [syncHalf, hn]; rfl
  | some r => simp only [syncHalf, hn]; rfl

end Sys2Proof.Machine
end

