-- ==== Sys2Proof/Tests/Slice0.lean ====
section
/-! SUPPORT. The model's own tests: the well-formedness checks, words written out from the spec's encodings, one or two
single steps for each instruction with the results the spec lists (95_test_vectors.md), and for every statement with
hypotheses a state and operands that meet them. -/

namespace Sys2Proof.Tests

open Sys2Proof.Machine Sys2Proof.Claims

/-! ### Data -/

/-- 'X' = 0x58 (R81). -/
def charX : Byte := 0x58#8
/-- 'E' = 0x45 (R81). -/
def charE : Byte := 0x45#8
/-- "11111". -/
def a11111 : AddrChars := #v[0x31#8, 0x31#8, 0x31#8, 0x31#8, 0x31#8]
/-- "00000". -/
def a00000 : AddrChars := #v[0x30#8, 0x30#8, 0x30#8, 0x30#8, 0x30#8]
/-- "10101". -/
def a10101 : AddrChars := #v[0x31#8, 0x30#8, 0x31#8, 0x30#8, 0x31#8]
/-- "10110". -/
def a10110 : AddrChars := #v[0x31#8, 0x30#8, 0x31#8, 0x31#8, 0x30#8]
/-- "01010". -/
def a01010 : AddrChars := #v[0x30#8, 0x31#8, 0x30#8, 0x31#8, 0x30#8]
/-- "1111X". -/
def a1111X : AddrChars := #v[0x31#8, 0x31#8, 0x31#8, 0x31#8, 0x58#8]

/-- "11111A0". -/
def strA0 : List Byte := [0x31#8, 0x31#8, 0x31#8, 0x31#8, 0x31#8, 0x41#8, 0x30#8]
/-- "11111A", six characters. -/
def strSix : List Byte := [0x31#8, 0x31#8, 0x31#8, 0x31#8, 0x31#8, 0x41#8]
/-- "1111XA1". -/
def strX4 : List Byte := [0x31#8, 0x31#8, 0x31#8, 0x31#8, 0x58#8, 0x41#8, 0x31#8]
/-- "X1Y11E9". -/
def strX0 : List Byte := [0x58#8, 0x31#8, 0x59#8, 0x31#8, 0x31#8, 0x45#8, 0x39#8]
/-- "11111E1". -/
def strE : List Byte := [0x31#8, 0x31#8, 0x31#8, 0x31#8, 0x31#8, 0x45#8, 0x31#8]
/-- "11111@1". -/
def strAt : List Byte := [0x31#8, 0x31#8, 0x31#8, 0x31#8, 0x31#8, 0x40#8, 0x31#8]
/-- "11111A2". -/
def strS2 : List Byte := [0x31#8, 0x31#8, 0x31#8, 0x31#8, 0x31#8, 0x41#8, 0x32#8]

/-- A codeword of twelve equal symbols. -/
def all12 (y : Symbol) : Codeword := #v[y, y, y, y, y, y, y, y, y, y, y, y]

/-- A block that has been configured (T = 500) and booted, with the host's turns given (R231). -/
def booted (turns : List HostTurn) : State :=
  { State.reset with
    cfg := { tUnit := 500, txPin := some ⟨1⟩, enPin := some ⟨2⟩ }, phase := .active, en := .high,
    host := turns }

/-- A block in the middle of sending twelve symbols `y`. -/
def sending (y : Symbol) (q : Seq) : State :=
  { booted [] with cw := all12 y, cwOk := true, seq := q }

/-- The step answered a next state of which `p` is true. -/
def answers (o : StepOutcome) (p : State → Bool) : Bool :=
  match o with
  | .next t => p t
  | .fault _ => false
  | .refused _ => false

/-- The step was refused for the reason `r`. -/
def refuses (o : StepOutcome) (r : Refusal) : Bool :=
  match o with
  | .next _ => false
  | .fault _ => false
  | .refused r' => r' == r

/-- The parsing step of a table word from reset: the codeword as `CW24`, the channel and the state that result. -/
def parsed (w : Nat) (cw24 : BitVec 24) (c : BitVec 3) (on : Bool) : Bool :=
  answers (step (State.reset.withFetchWord 56 w)) fun t =>
    packCw24 t.cw == cw24 && t.chan == c && t.swState == on && t.seq == .tx 0 (.data 0 0) .h

/-- What a latched command string decodes to. -/
def rejects (bs : List Byte) (e : CmdError) : Bool :=
  match decodeBytes bs with
  | .ok _ => false
  | .error e' => e' == e

/-! ### Well-formedness: an ill-formed character at each position is refused (R82) -/

theorem test_wf_good : (Instr.swDOn a10110).wf = true := by decide
theorem test_wf_pos0 : (Instr.swAOff #v[charX, 0x31#8, 0x31#8, 0x31#8, 0x31#8]).wf = false := by decide
theorem test_wf_pos1 : (Instr.swAOn #v[0x31#8, 0x32#8, 0x31#8, 0x31#8, 0x31#8]).wf = false := by decide
theorem test_wf_pos2 : (Instr.swBOff #v[0x31#8, 0x31#8, 0x2F#8, 0x31#8, 0x31#8]).wf = false := by decide
theorem test_wf_pos3 : (Instr.swCOn #v[0x30#8, 0x30#8, 0x30#8, 0x46#8, 0x30#8]).wf = false := by decide
theorem test_wf_pos4 : (Instr.swDOff a1111X).wf = false := by decide

/-! ### Words written out from the encodings (R60, R86, R87, R88; 95_test_vectors.md section 2.1) -/

/-- "00000A0". -/
theorem test_decode_swAOff : decodeTableWord 56 0x30303030304130 = some (.swAOff a00000) := by decide
/-- "11111A1". -/
theorem test_decode_swAOn : decodeTableWord 56 0x31313131314131 = some (.swAOn a11111) := by decide
/-- "10110B0", bit by bit: the address bits are word bits 48, 40, 32, 24, 16. -/
theorem test_decode_swBOff :
    decodeTableWord 56 0b00110001001100000011000100110001001100000100001000110000 =
      some (.swBOff a10110) := by decide
/-- "11111B1". -/
theorem test_decode_swBOn : decodeTableWord 56 0x31313131314231 = some (.swBOn a11111) := by decide
/-- "10101C0". -/
theorem test_decode_swCOff : decodeTableWord 56 0x31303130314330 = some (.swCOff a10101) := by decide
/-- "10101C1". -/
theorem test_decode_swCOn : decodeTableWord 56 0x31303130314331 = some (.swCOn a10101) := by decide
/-- "01010D0". -/
theorem test_decode_swDOff : decodeTableWord 56 0x30313031304430 = some (.swDOff a01010) := by decide
/-- "01010D1". -/
theorem test_decode_swDOn : decodeTableWord 56 0x30313031304431 = some (.swDOn a01010) := by decide
theorem test_decode_tx0 : decodeTableWord 8 0b00 = some .tx0 := by decide
theorem test_decode_tx1 : decodeTableWord 8 0b01 = some .tx1 := by decide
theorem test_decode_txF : decodeTableWord 8 0b10 = some .txF := by decide
theorem test_decode_txNop : decodeTableWord 2 0b11 = some .txNop := by decide
/-- "11111E1" (R90) and a lower-case 'a' (R81). -/
theorem test_decode_reserved_letter :
    decodeTableWord 56 0x31313131314531 = none ∧ decodeTableWord 56 0x31313131316131 = none := by
  decide
/-- `CMD56` of "11111A0" and `CW24` of "000000FFFFF0" (R60). -/
theorem test_packed_forms :
    packCmd56 #v[0x31#8, 0x31#8, 0x31#8, 0x31#8, 0x31#8, 0x41#8, 0x30#8] = 0x31313131314130#56 ∧
    packCw24 #v[.s0, .s0, .s0, .s0, .s0, .s0, .sf, .sf, .sf, .sf, .sf, .s0] = 0x000AA8#24 := by decide

/-! ### Rejected strings (95_test_vectors.md section 2.2) -/

theorem test_reject_length :
    rejects [] .invalidLength = true ∧ rejects strSix .invalidLength = true ∧
    rejects [0x31#8, 0x31#8, 0x31#8, 0x31#8, charX] .invalidLength = true := by decide
theorem test_reject_address :
    rejects strX4 (.invalidAddressChar charX 4) = true ∧
    rejects strX0 (.invalidAddressChar charX 0) = true ∧
    rejects (0x20#8 :: strA0) (.invalidAddressChar 0x20#8 0) = true := by decide
theorem test_reject_channel :
    rejects strE (.invalidChannelChar charE) = true ∧
    rejects strAt (.invalidChannelChar 0x40#8) = true := by decide
theorem test_reject_state :
    rejects strS2 (.invalidStateChar 0x32#8) = true ∧
    rejects (strSix ++ [0x0A#8]) (.invalidStateChar 0x0A#8) = true := by decide

/-! ### The encoder (95_test_vectors.md section 3) -/

/-- `ENCODE("00000", 5, on)` is "FFFFFFFFF00F" (R149). -/
theorem test_encode_channel5 :
    (encodeCodeword a00000 5#3 true).map packCw24 = some 0b101010101010101010000010#24 := by decide
theorem test_encode_refuses :
    encodeCodeword a11111 0#3 true = none ∧ encodeCodeword a11111 6#3 true = none ∧
    encodeCodeword a11111 7#3 false = none ∧ encodeCodeword a1111X 1#3 true = none := by decide

/-! ### One step of each command (codewords of 95_test_vectors.md section 2.1) -/

theorem test_step_swAOff : parsed 0x31313131314130 0x000AA8#24 1#3 false = true := by decide
theorem test_step_swAOn : parsed 0x30303030314131 0xAA0AA2#24 1#3 true = true := by decide
theorem test_step_swBOff : parsed 0x31303131304230 0x20A2A8#24 2#3 false = true := by decide
theorem test_step_swBOn : parsed 0x31313131314231 0x0022A2#24 2#3 true = true := by decide
theorem test_step_swCOff : parsed 0x31303130314330 0x2228A8#24 3#3 false = true := by decide
theorem test_step_swCOn : parsed 0x31303130314331 0x2228A2#24 3#3 true = true := by decide
theorem test_step_swDOff : parsed 0x30313031304430 0x88AA28#24 4#3 false = true := by decide
theorem test_step_swDOn : parsed 0x30303030304431 0xAAAA22#24 4#3 true = true := by decide

/-! ### One step of each symbol operation and of the sync pulse (95_test_vectors.md section 4.1, T = 350 and 500) -/

/-- From reset (T = 350): the first half-pulse of `TX0`. -/
theorem test_step_tx0 :
    answers (step (State.reset.withFetchWord 8 0b00)) (fun t =>
      t.trace == [.set .high, .delay 350] && t.tx == .high && t.seq == .tx 0 (.data 0 0) .l) = true := by
  decide
/-- The last half-pulse of `TX0` at the twelfth symbol: low for 1500, then the sync slot. -/
theorem test_step_tx0_last :
    answers (step (sending .s0 (.tx 9 (.data 11 1) .l))) (fun t =>
      t.trace == [.set .low, .delay 1500] && t.tx == .low && t.seq == .tx 9 .sync .h) = true := by
  decide
theorem test_step_tx1 :
    answers (step (State.reset.withFetchWord 8 0b01)) (fun t =>
      t.trace == [.set .high, .delay 1050]) = true := by decide
theorem test_step_tx1_last :
    answers (step (sending .s1 (.tx 3 (.data 10 1) .l))) (fun t =>
      t.trace == [.set .low, .delay 500] && t.seq == .tx 3 (.data 11 0) .h) = true := by decide
theorem test_step_txF :
    answers (step (State.reset.withFetchWord 8 0b10)) (fun t =>
      t.trace == [.set .high, .delay 350]) = true := by decide
/-- The second pulse of 'F' is the long one. -/
theorem test_step_txF_second :
    answers (step (sending .sf (.tx 0 (.data 4 1) .h))) (fun t =>
      t.trace == [.set .high, .delay 1500]) = true := by decide
theorem test_step_txNop :
    answers (step (State.reset.withFetchWord 8 0b11)) (fun t =>
      t.trace == [] && t.tx == .low && t.seq == .tx 0 (.data 1 0) .h) = true := by decide
theorem test_step_txNop_last :
    answers (step (sending .other (.tx 2 (.data 11 0) .h))) (fun t =>
      t.trace == [] && t.seq == .tx 2 .sync .h) = true := by decide
/-- The low half of the tenth sync pulse: 31 units, then the command is over (R173). -/
theorem test_step_sync_end :
    answers (step (sending .sf (.tx 9 .sync .l))) (fun t =>
      t.trace == [.set .low, .delay 15500] && t.seq == .idle && t.result == .ok) = true := by decide
theorem test_step_sync_next :
    answers (step (sending .sf (.tx 8 .sync .l))) (fun t => t.seq == .tx 9 (.data 0 0) .h) = true := by
  decide

/-! ### The host's moves -/

/-- A submission at `SEQ = TX(3, 0, 0, H)` is refused (95_test_vectors.md P4). -/
theorem test_submit_while_busy :
    refuses (step { sending .sf (.tx 3 (.data 0 0) .h) with host := [.act (.submit strA0)] })
      .submitWhileBusy = true := by decide
/-- A rejected command: "1111XA1" records 'X' and position 4 and touches no pin (95_test_vectors.md E6). -/
theorem test_step_reject :
    answers (step (latchCommand strX4 (booted []))) (fun t =>
      t.result == .invalidAddressChar && t.errChar == 0x58#8 && t.errPos == 4#3 && t.trace == [] &&
        !t.busy) = true := by decide
/-- A unit of 0 is refused (R21, R243). -/
theorem test_zero_unit :
    refuses (step { State.reset with host := [.act (.writeTUnit 0)] }) .zeroTUnit = true := by decide

/-! ### Witnesses: the hypotheses of each statement, met -/

theorem witness_EncodeThenDecodeIsIdentity :
    (Instr.swAOff a00000).wf = true ∧ (Instr.swDOn a11111).wf = true ∧ Instr.txNop.wf = true := by
  decide

theorem witness_AcceptedStringsAreTheCommands :
    decodeBytes (strA0 ++ [0x0A#8]) = .ok (.swAOff a11111) ∧
    (wfAddr a11111 = true ∧ Instr.swAOff a11111 = commandInstr .a false a11111 ∧
      strA0 ++ [0x0A#8] = (commandChars .a false a11111).toList ++ [0x0A#8]) :=
  ⟨rfl, by decide, rfl, rfl⟩

theorem witness_CommandWordIsInstanceByMask :
    0x31303131304431#56 &&& commandMask = commandMatch .d true := by decide

theorem witness_PackedWordsLoseNothing : packCw24 (all12 .s1) = packCw24 (all12 .s1) := rfl

theorem witness_TrailingBytesIgnored : 7 ≤ strA0.length := by decide

/-- Five address characters, as a hypothesis of several statements has them. -/
theorem good_address (x y : Byte) (q : Fin 5) :
    ∃ d, [0x31#8, 0x31#8, 0x31#8, 0x31#8, 0x31#8, x, y][q.val]? = some d ∧ isAddrChar d = true := by
  fin_cases q <;> exact ⟨_, rfl, rfl⟩

theorem witness_DecoderReportsTheFirstError_length : strSix.length < 7 := by decide

theorem witness_DecoderReportsTheFirstError_address :
    7 ≤ strX4.length ∧ strX4[(4 : Fin 5).val]? = some charX ∧ isAddrChar charX = false ∧
      ∀ q : Fin 5, q < 4 → ∃ d, strX4[q.val]? = some d ∧ isAddrChar d = true :=
  ⟨by decide, rfl, rfl, fun q h => by
    fin_cases q <;> first | exact ⟨_, rfl, rfl⟩ | exact absurd h (by decide)⟩

theorem witness_DecoderReportsTheFirstError_channel :
    7 ≤ strE.length ∧ (∀ q : Fin 5, ∃ d, strE[q.val]? = some d ∧ isAddrChar d = true) ∧
      strE[5]? = some charE ∧ charE ≠ Byte.charA ∧ charE ≠ Byte.charB ∧ charE ≠ Byte.charC ∧
      charE ≠ Byte.charD :=
  ⟨by decide, good_address _ _, rfl, by decide, by decide, by decide, by decide⟩

theorem witness_DecoderReportsTheFirstError_state :
    7 ≤ strS2.length ∧ (∀ q : Fin 5, ∃ d, strS2[q.val]? = some d ∧ isAddrChar d = true) ∧
      (∃ l : Letter, strS2[5]? = some l.char) ∧ strS2[6]? = some 0x32#8 ∧
      0x32#8 ≠ Byte.char0 ∧ 0x32#8 ≠ Byte.char1 :=
  ⟨by decide, good_address _ _, ⟨.a, rfl⟩, rfl, by decide, by decide⟩

theorem witness_ShortCommandIsRejected : strSix.length < 7 ∧ ([] : List Byte).length < 7 := by decide

/-- The last address position. -/
theorem witness_BadAddressCharIsRejected :
    7 ≤ strX4.length ∧ strX4[(4 : Fin 5).val]? = some charX ∧ isAddrChar charX = false ∧
      ∀ q : Fin 5, q < 4 → ∃ d, strX4[q.val]? = some d ∧ isAddrChar d = true :=
  witness_DecoderReportsTheFirstError_address

/-- The first address position, of a string with several faults. -/
theorem witness_BadAddressCharIsRejected_first :
    7 ≤ strX0.length ∧ strX0[(0 : Fin 5).val]? = some charX ∧ isAddrChar charX = false ∧
      ∀ q : Fin 5, q < 0 → ∃ d, strX0[q.val]? = some d ∧ isAddrChar d = true :=
  ⟨by decide, rfl, rfl, fun q h => absurd h (by omega)⟩

theorem witness_BadChannelCharIsRejected :
    7 ≤ strE.length ∧ (∀ q : Fin 5, ∃ d, strE[q.val]? = some d ∧ isAddrChar d = true) ∧
      strE[5]? = some charE ∧ charE ≠ Byte.charA ∧ charE ≠ Byte.charB ∧ charE ≠ Byte.charC ∧
      charE ≠ Byte.charD :=
  witness_DecoderReportsTheFirstError_channel

theorem witness_BadStateCharIsRejected :
    7 ≤ strS2.length ∧ (∀ q : Fin 5, ∃ d, strS2[q.val]? = some d ∧ isAddrChar d = true) ∧
      strS2[5]? = some Letter.a.char ∧ strS2[6]? = some 0x32#8 ∧
      0x32#8 ≠ Byte.char0 ∧ 0x32#8 ≠ Byte.char1 :=
  ⟨by decide, good_address _ _, rfl, rfl, by decide, by decide⟩

/-- Each reason for `invalid` at its boundary: channel 0, channel 6, one wrong character; and the caller's case. -/
theorem witness_EncoderFailsExactlyOutsideItsDomain :
    (0#3).toNat < 1 ∧ 5 < (6#3).toNat ∧ (∃ i : Fin 5, a1111X[i] ≠ Byte.char0 ∧ a1111X[i] ≠ Byte.char1) ∧
    encodeCodeword a1111X (channelOf .d) true = none :=
  ⟨by decide, by decide, ⟨4, by decide, by decide⟩, by decide⟩

/-- The lowest and the highest channel, both states. -/
theorem witness_EncoderMapsEachPart :
    (∃ cw, encodeCodeword a11111 1#3 false = some cw) ∧
    (∃ cw, encodeCodeword a00000 5#3 true = some cw) :=
  ⟨⟨_, rfl⟩, ⟨_, rfl⟩⟩

theorem witness_CodewordAlphabetAndCounts : ∃ cw, encodeCodeword a11111 4#3 true = some cw :=
  ⟨_, rfl⟩

theorem witness_EncoderIsInjective :
    ∃ cw, encodeCodeword a10101 3#3 true = some cw ∧ encodeCodeword a10101 3#3 true = some cw :=
  ⟨_, rfl, rfl⟩

theorem witness_CommandsStartTheirTransmission : wfAddr a10110 = true := by decide

theorem witness_CommandsSwitchTheirChannel : wfAddr a01010 = true ∧ (booted []).host = [] :=
  ⟨by decide, rfl⟩

theorem witness_IllFormedAddressRaisesInvalidEncoding : wfAddr a1111X = false := by decide

/-- All five positions of the statement, at the last symbol of the last repetition and at the first of the first. -/
theorem witness_Tx0SendsTwoShortPulses :
    (sending .s0 (.tx 9 (.data 11 0) .h)).seq = .tx 9 (.data 11 0) .h ∧
    (sending .s0 (.tx 9 (.data 11 0) .l)).seq = .tx 9 (.data 11 0) .l ∧
    (sending .s0 (.tx 9 (.data 11 1) .h)).seq = .tx 9 (.data 11 1) .h ∧
    (sending .s0 (.tx 9 (.data 11 1) .l)).seq = .tx 9 (.data 11 1) .l ∧
    (sending .s0 (.tx 9 (.data 11 0) .h)).cw[(11 : Fin 12)] = .s0 ∧
    (sending .s0 (.tx 0 (.data 0 0) .h)).cw[(0 : Fin 12)] = .s0 ∧
    (sending .s0 (.tx 9 (.data 11 0) .h)).host = [] :=
  ⟨rfl, rfl, rfl, rfl, rfl, rfl, rfl⟩

theorem witness_Tx1SendsTwoLongPulses :
    (sending .s1 (.tx 9 (.data 11 0) .h)).seq = .tx 9 (.data 11 0) .h ∧
    (sending .s1 (.tx 9 (.data 11 0) .l)).seq = .tx 9 (.data 11 0) .l ∧
    (sending .s1 (.tx 9 (.data 11 1) .h)).seq = .tx 9 (.data 11 1) .h ∧
    (sending .s1 (.tx 9 (.data 11 1) .l)).seq = .tx 9 (.data 11 1) .l ∧
    (sending .s1 (.tx 9 (.data 11 0) .h)).cw[(11 : Fin 12)] = .s1 ∧
    (sending .s1 (.tx 9 (.data 11 0) .h)).host = [] :=
  ⟨rfl, rfl, rfl, rfl, rfl, rfl⟩

theorem witness_TxFSendsShortThenLong :
    (sending .sf (.tx 9 (.data 11 0) .h)).seq = .tx 9 (.data 11 0) .h ∧
    (sending .sf (.tx 9 (.data 11 0) .l)).seq = .tx 9 (.data 11 0) .l ∧
    (sending .sf (.tx 9 (.data 11 1) .h)).seq = .tx 9 (.data 11 1) .h ∧
    (sending .sf (.tx 9 (.data 11 1) .l)).seq = .tx 9 (.data 11 1) .l ∧
    (sending .sf (.tx 9 (.data 11 0) .h)).cw[(11 : Fin 12)] = .sf ∧
    (sending .sf (.tx 9 (.data 11 0) .h)).host = [] :=
  ⟨rfl, rfl, rfl, rfl, rfl, rfl⟩

theorem witness_TxNopSendsNothing :
    (sending .other (.tx 9 (.data 11 1) .l)).seq = .tx 9 (.data 11 1) .l ∧
    (sending .other (.tx 9 (.data 11 1) .l)).cw[(11 : Fin 12)] = .other ∧
    (sending .other (.tx 9 (.data 11 1) .l)).host = [] ∧
    ∃ cw, encodeCodeword a11111 5#3 true = some cw :=
  ⟨rfl, rfl, rfl, _, rfl⟩

/-- The ninth repetition has a successor, the tenth is the last. -/
theorem witness_SyncPulseEndsEachRepetition :
    (sending .sf (.tx 9 .sync .h)).host = [] ∧
    (sending .sf (.tx 9 .sync .h)).seq = .tx 9 .sync .h ∧
    ((8 : Fin 10).val + 1 < 10 ∧ (sending .sf (.tx 8 .sync .l)).seq = .tx 8 .sync .l) ∧
    (sending .sf (.tx 9 .sync .l)).seq = .tx 9 .sync .l :=
  ⟨rfl, rfl, ⟨by decide, rfl⟩, rfl⟩

theorem witness_SymbolOpsAloneSendTheWholeSymbol :
    (∀ rep sym pul half, (booted []).seq ≠ .tx rep (.data sym pul) half) ∧
    ∀ rep sym pul half, (sending .sf (.tx 9 .sync .l)).seq ≠ .tx rep (.data sym pul) half :=
  ⟨(by intro _ _ _ _ h; cases h), (by intro _ _ _ _ h; cases h)⟩

theorem witness_InstructionFrames :
    (IsSymbolOp .txF ∧ ∃ t, exec .txF (sending .sf (.tx 9 (.data 11 1) .l)) = .next t) ∧
    (¬ IsSymbolOp (.swBOn a11111) ∧ (Instr.swBOn a11111).wf = true ∧
      ∃ t, exec (.swBOn a11111) (booted []) = .next t) :=
  ⟨⟨.inr (.inr (.inl rfl)), _, rfl⟩,
    ⟨fun h => by simp [IsSymbolOp] at h, by decide, _, rfl⟩⟩

theorem witness_TransmissionCounts :
    (∀ i : Fin 12, (all12 .s1)[i] ≠ .other) ∧
    (∀ i : Fin 12, (all12 .sf)[i] = .s0 ∨ (all12 .sf)[i] = .sf) := by decide

/-- The smallest unit. -/
theorem witness_WaveformAlternates : (∀ i : Fin 12, (all12 .s0)[i] ≠ .other) ∧ 1 ≤ 1 := by decide

/-- A codeword no command produces: twelve symbols of the reserved code. -/
theorem witness_SequencerCarriesOutTransmit :
    (sending .other (.tx 0 (.data 0 0) .h)).host = [] ∧
    (sending .other (.tx 0 (.data 0 0) .h)).seq = .tx 0 (.data 0 0) .h :=
  ⟨rfl, rfl⟩

theorem witness_SubmissionRunsParseAndSend :
    (Submits (booted [.act (.submit strA0)]) strA0 ∧ ∃ i, decodeBytes strA0 = .ok i) ∧
    (Submits (booted [.act (.submit strSix)]) strSix ∧ ∃ e, decodeBytes strSix = .error e) :=
  ⟨⟨⟨rfl, rfl, rfl⟩, _, rfl⟩, ⟨⟨rfl, rfl, rfl⟩, _, rfl⟩⟩

/-- Both kinds of command; the count of steps at its two ends. -/
theorem witness_BusyFromSubmissionToTheEnd :
    (Submits (booted [.act (.submit strA0)]) strA0 ∧ ∃ i, decodeBytes strA0 = .ok i) ∧
    (Submits (booted [.act (.submit strE)]) strE ∧ ∃ e, decodeBytes strE = .error e) ∧
    (1 ≤ 1 ∧ 1 ≤ 501) ∧ 1 ≤ 501 ∧ 501 ≤ 501 :=
  ⟨⟨⟨rfl, rfl, rfl⟩, _, rfl⟩, ⟨⟨rfl, rfl, rfl⟩, _, rfl⟩, by decide, by decide, by decide⟩

/-- Two different states and two strings that differ in an ignored character. -/
theorem witness_CommandIndependentOfHistory :
    (booted []).cfg.tUnit = (sending .s1 .idle).cfg.tUnit ∧
    firstSeven strA0 = firstSeven (strA0 ++ [0x0A#8]) :=
  ⟨rfl, rfl⟩

theorem witness_InvalidEncodingIsNeverRecorded :
    ∃ t, step { booted [] with result := .invalidEncoding } = .next t ∧ t.result = .invalidEncoding :=
  ⟨_, rfl, rfl⟩

/-- A state in the middle of the transmission of "11111A0", pin high, meets the invariant and steps on. -/
theorem witness_InvKeptByEveryStep :
    ∃ (cw : Codeword) (s : State), encodeCodeword a11111 1#3 false = some cw ∧
      s.seq = .tx 4 (.data 11 1) .l ∧ Inv s ∧ ∃ t, step s = .next t :=
  ⟨#v[.s0, .s0, .s0, .s0, .s0, .s0, .sf, .sf, .sf, .sf, .sf, .s0],
    { booted [] with
      addr := a11111, chan := 1#3, swState := false, cwOk := true, tx := .high,
      cw := #v[.s0, .s0, .s0, .s0, .s0, .s0, .sf, .sf, .sf, .sf, .sf, .s0],
      trace := [.set .high, .delay 500], seq := .tx 4 (.data 11 1) .l },
    by decide, rfl, by constructor <;> decide, _, rfl⟩

/-- Both sides of the equivalence, false and true. -/
theorem witness_StepAnswersExactlyWhenHostIsLegal :
    (booted [.act .shutdown]).hostLegal = true ∧ (booted [.act (.writeTUnit 1)]).hostLegal = false := by
  decide

theorem witness_BlockAloneNeverStops : (sending .other (.tx 9 .sync .l)).host = [] := rfl

theorem witness_EveryCommandEnds : (latchCommand strA0 (booted [])).host = [] := rfl

theorem witness_PinMovesOnlyByHalfPulses : ∃ t, blockStep (sending .s1 (.tx 0 (.data 0 1) .h)) = .next t :=
  ⟨_, rfl⟩

theorem witness_BlockNeverWritesConfiguration : ∃ t, blockStep (latchCommand strS2 (booted [])) = .next t :=
  ⟨_, rfl⟩

/-- The block's turn in both ways, and each of the four positions. -/
theorem witness_StepRunsTheNamedInstruction :
    BlockTurn (booted []) (booted []) ∧ BlockTurn (booted [.wait]) (booted []) ∧
    ((latchCommand strA0 (booted [])).seq = .parse ∧ (latchCommand strA0 (booted [])).lenOk = true ∧
      decodeCommand (latchCommand strA0 (booted [])).cmd = .ok (.swAOff a11111)) ∧
    ((latchCommand strSix (booted [])).seq = .parse ∧
      decodeLatched (latchCommand strSix (booted [])).lenOk (latchCommand strSix (booted [])).cmd =
        .error .invalidLength) ∧
    (sending .s1 (.tx 9 (.data 11 1) .l)).seq = .tx 9 (.data 11 1) .l ∧ (booted []).seq = .idle :=
  ⟨.inl ⟨rfl, rfl⟩, .inr ⟨[], rfl, rfl⟩, ⟨rfl, rfl, rfl⟩, ⟨rfl, rfl⟩, rfl, rfl⟩

theorem witness_PlacedTableWordRuns :
    decodeTableWord 56 0x31313131314130 = some (.swAOff a11111) ∧ decodeTableWord 8 0x3 = some .txNop := by
  decide

/-- Each clause: the wrong phase, busy, seven characters, six characters. -/
theorem witness_SubmissionIsLatchedOrRefused :
    (let s := { booted [.act (.submit strA0)] with phase := .stopped }
     s.host = .act (.submit strA0) :: [] ∧ s.phase ≠ .active) ∧
    (let s := { sending .sf (.tx 3 (.data 0 0) .h) with host := [.act (.submit strA0)] }
     s.host = .act (.submit strA0) :: [] ∧ s.phase = .active ∧ s.busy = true) ∧
    (let s := booted [.act (.submit strA0)]
     s.host = .act (.submit strA0) :: [] ∧ s.phase = .active ∧ s.busy = false ∧ 7 ≤ strA0.length) ∧
    (let s := booted [.act (.submit strSix)]
     s.host = .act (.submit strSix) :: [] ∧ s.phase = .active ∧ s.busy = false ∧ strSix.length < 7) := by
  decide

/-- Each clause, a unit of 0 and of 1 among them. -/
theorem witness_ConfigurationIsWrittenInInitOnly :
    (let s := booted [.act (.writeTUnit 1)]
     s.host = .act (.writeTUnit 1) :: [] ∧ s.phase ≠ .init) ∧
    (let s := { State.reset with host := [.act (.writeTUnit 0)] }
     s.host = .act (.writeTUnit 0) :: [] ∧ s.phase = .init) ∧
    (let s := { State.reset with host := [.act (.writeTUnit 1)] }
     s.host = .act (.writeTUnit 1) :: [] ∧ s.phase = .init ∧ 1 ≤ 1) ∧
    (let s := booted [.act (.writeTxPin ⟨5⟩)]
     s.host = .act (.writeTxPin ⟨5⟩) :: [] ∧ s.phase ≠ .init) ∧
    (let s := { State.reset with host := [.act (.writeTxPin ⟨5⟩)] }
     s.host = .act (.writeTxPin ⟨5⟩) :: [] ∧ s.phase = .init) ∧
    (let s := booted [.act (.writeEnPin ⟨5⟩)]
     s.host = .act (.writeEnPin ⟨5⟩) :: [] ∧ s.phase ≠ .init) ∧
    (let s := { State.reset with host := [.act (.writeEnPin ⟨5⟩)] }
     s.host = .act (.writeEnPin ⟨5⟩) :: [] ∧ s.phase = .init) := by decide

/-- Each clause of boot: wrong phase, no pin, one pin, equal pins, pins not acquired, and the boot that succeeds. -/
theorem witness_BootEntersActive :
    (let s := booted [.act (.boot true)]
     s.host = .act (.boot true) :: [] ∧ s.phase ≠ .init) ∧
    (let s := { State.reset with host := [.act (.boot true)] }
     s.host = .act (.boot true) :: [] ∧ s.phase = .init ∧ s.cfg.txPin = none) ∧
    (let s := { State.reset with host := [.act (.boot true)], cfg := ⟨350, some ⟨1⟩, none⟩ }
     s.host = .act (.boot true) :: [] ∧ s.phase = .init ∧ s.cfg.enPin = none) ∧
    (let s := { State.reset with host := [.act (.boot true)], cfg := ⟨350, some ⟨1⟩, some ⟨1⟩⟩ }
     s.host = .act (.boot true) :: [] ∧ s.phase = .init ∧ s.cfg.txPin = s.cfg.enPin) ∧
    (let s := { State.reset with host := [.act (.boot false)], cfg := ⟨350, some ⟨1⟩, some ⟨2⟩⟩ }
     s.host = .act (.boot false) :: [] ∧ s.phase = .init ∧ s.cfg.txPin ≠ s.cfg.enPin) ∧
    (let s := { State.reset with host := [.act (.boot true)], cfg := ⟨350, some ⟨1⟩, some ⟨2⟩⟩ }
     s.host = .act (.boot true) :: [] ∧ s.phase = .init ∧ s.cfg.txPin ≠ s.cfg.enPin) := by decide

theorem witness_ShutdownEntersStopped :
    (let s := { State.reset with host := [.act .shutdown] }
     s.host = .act .shutdown :: [] ∧ s.phase ≠ .active) ∧
    (let s := { sending .sf (.tx 9 .sync .l) with host := [.act .shutdown] }
     s.host = .act .shutdown :: [] ∧ s.phase = .active ∧ s.busy = true) ∧
    (let s := booted [.act .shutdown]
     s.host = .act .shutdown :: [] ∧ s.phase = .active ∧ s.busy = false) := by decide

theorem witness_HostResetRestoresReset :
    (let s := { sending .sf (.tx 9 .sync .l) with host := [.act .reset] }
     s.host = .act .reset :: [] ∧ s.busy = true) ∧
    (let s := { booted [.act .reset] with phase := .stopped }
     s.host = .act .reset :: [] ∧ s.busy = false) := by decide

theorem witness_StatusReadsChangeNothing :
    (booted [.act .readStatus]).host = .act .readStatus :: [] ∧
    (sending .sf (.tx 9 .sync .l)).busy = true ∧
    ({ sending .sf (.tx 9 .sync .l) with host := [.act .observePin] } : State).host =
      .act .observePin :: [] := by decide

end Sys2Proof.Tests
end

/-! PROOFS. The invariant of the block (10_state.md R20 to R35) at reset and over every step: what each move of the host
answers, what each operation keeps, and from these the two statements. -/

namespace Sys2Proof.Machine

/-! ### The position, `BUSY` and the pin -/

theorem busy_eq_true_iff (s : State) : s.busy = true ↔ s.seq ≠ .idle := by
  simp [State.busy]

theorem busy_eq_false_iff (s : State) : s.busy = false ↔ s.seq = .idle := by
  simp [State.busy]

theorem Seq.ne_idle_of_isTx {q : Seq} (h : q.isTx = true) : q ≠ .idle := by
  rintro rfl; cases h

theorem Seq.afterSymbol_isTx (rep : Fin 10) (sym : Fin 12) : (Seq.afterSymbol rep sym).isTx = true := by
  obtain ⟨_, h⟩ | ⟨-, h⟩ := Seq.afterSymbol_cases rep sym <;> rw [h] <;> rfl

theorem Seq.afterSymbol_pinLevel (rep : Fin 10) (sym : Fin 12) :
    (Seq.afterSymbol rep sym).pinLevel = .low := by
  obtain ⟨_, h⟩ | ⟨-, h⟩ := Seq.afterSymbol_cases rep sym <;> rw [h] <;> rfl

theorem Seq.afterPulse_isTx (rep : Fin 10) (sym : Fin 12) (pul : Fin 2) :
    (Seq.afterPulse rep sym pul).isTx = true := by
  unfold Seq.afterPulse
  split
  · rfl
  · exact Seq.afterSymbol_isTx rep sym

theorem Seq.afterPulse_pinLevel (rep : Fin 10) (sym : Fin 12) (pul : Fin 2) :
    (Seq.afterPulse rep sym pul).pinLevel = .low := by
  unfold Seq.afterPulse
  split
  · rfl
  · exact Seq.afterSymbol_pinLevel rep sym

theorem levelAfter_append (l : Level) (es es' : List Event) :
    levelAfter l (es ++ es') = levelAfter (levelAfter l es) es' := by
  induction es generalizing l with
  | nil => rfl
  | cons e es ih => cases e <;> exact ih _

theorem pulseRom_none_iff (y : Symbol) : pulseRom y = none ↔ y = .other := by
  cases y <;> simp [pulseRom]

/-- The encoder never answers a symbol without a row of `PULSEROM` (R147, R166). -/
theorem encodeCodeword_ne_other {a : AddrChars} {c : BitVec 3} {on : Bool} {cw : Codeword}
    (h : encodeCodeword a c on = some cw) (i : Fin 12) : cw[i] ≠ .other := by
  rcases encodeCodeword_alphabet h i with hy | hy <;> rw [hy] <;> decide

/-! ### What each move of the host answers (R243) -/

theorem hostReset_next_iff (s t : State) :
    hostReset s = .next t ↔
      s.busy = false ∧ t = { State.reset with host := s.host, draws := s.draws } := by
  unfold hostReset
  split <;> simp_all [@eq_comm _ t]

theorem hostWriteTUnit_next_iff (us : Nat) (s t : State) :
    hostWriteTUnit us s = .next t ↔
      s.phase = .init ∧ 1 ≤ us ∧ t = { s with cfg := { s.cfg with tUnit := us } } := by
  unfold hostWriteTUnit
  (repeat' split) <;> simp_all [@eq_comm _ t, Nat.one_le_iff_ne_zero]

theorem hostWriteTxPin_next_iff (pin : PinId) (s t : State) :
    hostWriteTxPin pin s = .next t ↔
      s.phase = .init ∧ t = { s with cfg := { s.cfg with txPin := some pin } } := by
  unfold hostWriteTxPin
  split <;> simp_all [@eq_comm _ t]

theorem hostWriteEnPin_next_iff (pin : PinId) (s t : State) :
    hostWriteEnPin pin s = .next t ↔
      s.phase = .init ∧ t = { s with cfg := { s.cfg with enPin := some pin } } := by
  unfold hostWriteEnPin
  split <;> simp_all [@eq_comm _ t]

theorem hostBoot_next_iff (acquired : Bool) (s t : State) :
    hostBoot acquired s = .next t ↔
      s.phase = .init ∧ pinsReady s.cfg = true ∧ acquired = true ∧
        t = { s with tx := .low, en := .high, phase := .active } := by
  unfold hostBoot pinsReady
  (repeat' split) <;> simp_all [@eq_comm _ t]

theorem hostSubmit_next_iff (bs : List Byte) (s t : State) :
    hostSubmit bs s = .next t ↔ s.phase = .active ∧ s.busy = false ∧ t = latchCommand bs s := by
  unfold hostSubmit
  (repeat' split) <;> simp_all [@eq_comm _ t]

theorem hostShutdown_next_iff (s t : State) :
    hostShutdown s = .next t ↔
      s.phase = .active ∧ s.busy = false ∧ t = { s with en := .low, phase := .stopped } := by
  unfold hostShutdown
  (repeat' split) <;> simp_all [@eq_comm _ t]

/-! ### What the invariant says at a position -/

theorem Inv.tx_low_of_not_busy {s : State} (h : Inv s) (hb : s.busy = false) : s.tx = .low := by
  rw [h.pin_level, (busy_eq_false_iff s).1 hb]; rfl

theorem Inv.tx_low_of_parse {s : State} (h : Inv s) (hq : s.seq = .parse) : s.tx = .low := by
  rw [h.pin_level, hq]; rfl

theorem Inv.not_busy_of_not_active {s : State} (h : Inv s) (hp : s.phase ≠ .active) :
    s.busy = false := by
  by_contra hb
  exact hp (h.busy_active (by simpa using hb))

theorem Inv.active_of_seq {s : State} (h : Inv s) (hq : s.seq ≠ .idle) : s.phase = .active :=
  h.busy_active ((busy_eq_true_iff s).2 hq)

/-- The invariant speaks of no field of the model's own. -/
theorem inv_of_host_draws {s : State} (h : Inv s) (turns : List HostTurn) (n : Nat) :
    Inv { s with host := turns, draws := n } :=
  ⟨h.unit_pos, h.pins_ready, h.enable_level, h.busy_active, h.pin_level, h.pin_trace,
    h.addr_binary, h.codeword, h.payload, h.no_encoding_error⟩

theorem inv_reset : Inv State.reset := by
  constructor <;> decide

/-! ### The steps of the block -/

/-- One half-pulse inside a transmission, to a position that finds the level it sets (R168, R173). -/
theorem halfPulse_keeps_inv {s : State} (h : Inv s) (hs : s.seq.isTx = true) {q : Seq} {l : Level}
    (d : Nat) (hl : q.pinLevel = l) :
    Inv (setSeq q (delay d (setOutput l s))) where
  unit_pos := h.unit_pos
  pins_ready := h.pins_ready
  enable_level := h.enable_level
  busy_active _ := h.active_of_seq (Seq.ne_idle_of_isTx hs)
  pin_level := hl.symm
  pin_trace := by simp [levelAfter_append, levelAfter]
  addr_binary := h.addr_binary
  codeword _ := h.codeword hs
  payload := h.payload
  no_encoding_error := h.no_encoding_error

/-- The end of an accepted command, the pin being low (R173). -/
theorem completeCommand_keeps_inv {s : State} (h : Inv s) (hl : s.tx = .low) :
    Inv (completeCommand s) where
  unit_pos := h.unit_pos
  pins_ready := h.pins_ready
  enable_level := h.enable_level
  busy_active hb := by simp [State.busy] at hb
  pin_level := hl
  pin_trace := h.pin_trace
  addr_binary := h.addr_binary
  codeword hq := by simp [Seq.isTx] at hq
  payload := rfl
  no_encoding_error := by simp

theorem acceptCommand_keeps_inv {s : State} (h : Inv s) (hq : s.seq = .parse) (l : Letter) (on : Bool)
    {a : AddrChars} (ha : wfAddr a = true) : Inv (acceptCommand l on a s) := by
  rw [acceptCommand_of_wf l on a s ha]
  exact {
    unit_pos := h.unit_pos
    pins_ready := h.pins_ready
    enable_level := h.enable_level
    busy_active := fun _ => h.active_of_seq (by simp [hq])
    pin_level := h.tx_low_of_parse hq
    pin_trace := h.pin_trace
    addr_binary := ha
    codeword := fun _ => ⟨rfl, encodeCodeword_command l on a ha⟩
    payload := h.payload
    no_encoding_error := h.no_encoding_error }

/-- Every error of a latched command (R111, R198). -/
theorem decodeLatched_error_cases {lenOk : Bool} {cmd : Vector Byte 7} {e : CmdError}
    (hd : decodeLatched lenOk cmd = .error e) :
    e = .invalidLength ∨ decodeCommand cmd = .error e := by
  unfold decodeLatched at hd
  split at hd
  · exact .inr hd
  · exact .inl (by simpa using hd.symm)

/-- What a rejection leaves in `ADDR` are address characters: the old ones, free ones, or the command's (R25). -/
theorem wfAddr_rejectCommand {s : State} {e : CmdError} (hd : decodeLatched s.lenOk s.cmd = .error e)
    (ha : wfAddr s.addr = true) : wfAddr (rejectCommand e s).addr = true := by
  obtain rfl | hc := decodeLatched_error_cases hd
  · exact ha
  · obtain ⟨p, rfl, -⟩ | ⟨rfl, hw, -⟩ | ⟨rfl, hw, -⟩ := decodeCommand_error_cases s.cmd e hc
    · exact wfAddr_addrOfBits _
    · exact hw
    · exact hw

/-- The error a latched command is rejected with has the payload its `RESULT` asks for (R33). -/
theorem payloadAgrees_rejectCommand {s : State} {e : CmdError}
    (hd : decodeLatched s.lenOk s.cmd = .error e) : (rejectCommand e s).payloadAgrees = true := by
  obtain rfl | hc := decodeLatched_error_cases hd
  · rfl
  · obtain ⟨p, rfl, hp⟩ | ⟨rfl, -, hl⟩ | ⟨rfl, -, -, hs⟩ := decodeCommand_error_cases s.cmd e hc
    · have hbad := ((firstBadAddr_some_iff _ p).1 hp).1
      have hpos : p.val % 8 ≤ 4 := by omega
      simpa [State.payloadAgrees, resultOf, errCharOf, errPosOf, hpos] using hbad
    · simp [State.payloadAgrees, resultOf, errCharOf, errPosOf, hl]
    · simp [State.payloadAgrees, resultOf, errCharOf, errPosOf, hs]

/-- The decoder never reports `InvalidEncoding` (R117, R195). -/
theorem decodeLatched_ne_invalidEncoding (lenOk : Bool) (cmd : Vector Byte 7) :
    decodeLatched lenOk cmd ≠ .error .invalidEncoding := by
  intro hd
  obtain h | hc := decodeLatched_error_cases hd
  · cases h
  · simpa using decodeCommand_error_cases cmd _ hc

theorem rejectCommand_keeps_inv {s : State} (h : Inv s) (hq : s.seq = .parse) {e : CmdError}
    (hd : decodeLatched s.lenOk s.cmd = .error e) : Inv (rejectCommand e s) where
  unit_pos := by simpa using h.unit_pos
  pins_ready := by simpa using h.pins_ready
  enable_level := by simpa using h.enable_level
  busy_active hb := by simp [State.busy] at hb
  pin_level := by simpa [Seq.pinLevel] using h.tx_low_of_parse hq
  pin_trace := by simpa using h.pin_trace
  addr_binary := wfAddr_rejectCommand hd h.addr_binary
  codeword ht := by simp [Seq.isTx] at ht
  payload := payloadAgrees_rejectCommand hd
  no_encoding_error := by
    have hne : e ≠ .invalidEncoding := fun he => decodeLatched_ne_invalidEncoding _ _ (he ▸ hd)
    cases e <;> simp_all [resultOf]

/-- During a transmission the symbol sent is one of the encoder's, so it has a row of `PULSEROM` (R28, R147). -/
theorem Inv.cw_ne_other {s : State} (h : Inv s) (hs : s.seq.isTx = true) (sym : Fin 12) :
    s.cw[sym] ≠ .other :=
  encodeCodeword_ne_other (h.codeword hs).2 sym

theorem stepSymbol_keeps_inv {s : State} (h : Inv s) {rep : Fin 10} {sym : Fin 12} {pul : Fin 2}
    {half : Half} (hq : s.seq = .tx rep (.data sym pul) half) :
    Inv (stepSymbol s.cw[sym] s) := by
  have hs : s.seq.isTx = true := by rw [hq]; rfl
  obtain ⟨hn, -⟩ | ⟨row, -, -, he⟩ | ⟨row, -, -, he⟩ := stepSymbol_cases s.cw[sym] s rep sym pul half hq
  · exact absurd ((pulseRom_none_iff _).1 hn) (h.cw_ne_other hs sym)
  · rw [he]
    exact halfPulse_keeps_inv h hs _ rfl
  · rw [he]
    exact halfPulse_keeps_inv h hs _ (Seq.afterPulse_pinLevel ..)

/-- The last low half is a half-pulse like the others; the position it leads to is overwritten by the command's end. -/
theorem syncHalf_keeps_inv {s : State} (h : Inv s) {rep : Fin 10} {half : Half}
    (hq : s.seq = .tx rep .sync half) : Inv (syncHalf rep half s) := by
  have hs : s.seq.isTx = true := by rw [hq]; rfl
  obtain ⟨-, he⟩ | ⟨-, r, -, he⟩ | ⟨-, -, he⟩ := syncHalf_cases rep half s
  · rw [he]
    exact halfPulse_keeps_inv h hs _ rfl
  · rw [he]
    exact halfPulse_keeps_inv h hs _ rfl
  · rw [he]
    have hlow : Inv (setSeq (.tx rep .sync .h) (lowHalf syncRom s)) :=
      halfPulse_keeps_inv h hs _ rfl
    show Inv (completeCommand (setSeq (.tx rep .sync .h) (lowHalf syncRom s)))
    exact completeCommand_keeps_inv hlow rfl

theorem blockStep_keeps_inv {s t : State} (h : Inv s) (ht : blockStep s = .next t) : Inv t := by
  obtain ⟨-, he⟩ | ⟨l, on, hq, ha, he⟩ | ⟨e, hq, hd, he⟩ | ⟨rep, sym, pul, half, hq, he⟩ |
    ⟨rep, half, hq, he⟩ := blockStep_cases s <;> rw [he] at ht <;> cases ht
  · exact h
  · exact acceptCommand_keeps_inv h hq l on ha
  · exact rejectCommand_keeps_inv h hq hd
  · exact stepSymbol_keeps_inv h hq
  · exact syncHalf_keeps_inv h hq

/-! ### The moves of the host -/

/-- Outside `ACTIVE` the pins are free, so a write of `CFG` in `INIT` has only the unit to keep (R21, R235). -/
theorem writeCfg_keeps_inv {s : State} (h : Inv s) (hp : s.phase = .init) {c : Cfg} (hc : 1 ≤ c.tUnit) :
    Inv { s with cfg := c } :=
  ⟨hc, fun ha => by simp [hp] at ha, h.enable_level, h.busy_active, h.pin_level, h.pin_trace,
    h.addr_binary, h.codeword, h.payload, h.no_encoding_error⟩

/-- A boot's write of the pin changes nothing: in `INIT` the block is idle and the pin low already (R34, R231). -/
theorem boot_keeps_inv {s : State} (h : Inv s) (hp : s.phase = .init) (hc : pinsReady s.cfg = true) :
    Inv { s with tx := .low, en := .high, phase := .active } := by
  have hl : s.tx = .low := h.tx_low_of_not_busy (h.not_busy_of_not_active (by simp [hp]))
  exact ⟨h.unit_pos, fun _ => hc, rfl, fun _ => rfl, hl ▸ h.pin_level, hl ▸ h.pin_trace,
    h.addr_binary, h.codeword, h.payload, h.no_encoding_error⟩

theorem latchCommand_keeps_inv {s : State} (h : Inv s) (hp : s.phase = .active) (hb : s.busy = false)
    (bs : List Byte) : Inv (latchCommand bs s) where
  unit_pos := by simpa using h.unit_pos
  pins_ready := by simpa using h.pins_ready
  enable_level := by simpa using h.enable_level
  busy_active _ := by simpa using hp
  pin_level := by simpa [Seq.pinLevel] using h.tx_low_of_not_busy hb
  pin_trace := by simpa using h.pin_trace
  addr_binary := by simpa using h.addr_binary
  codeword ht := by simp [Seq.isTx] at ht
  payload := by simpa [State.payloadAgrees] using h.payload
  no_encoding_error := by simpa using h.no_encoding_error

theorem shutdown_keeps_inv {s : State} (h : Inv s) (hb : s.busy = false) :
    Inv { s with en := .low, phase := .stopped } :=
  ⟨h.unit_pos, nofun, rfl, fun hb' => absurd (hb.symm.trans hb') (by decide), h.pin_level, h.pin_trace,
    h.addr_binary, h.codeword, h.payload, h.no_encoding_error⟩

theorem hostMove_keeps_inv {m : HostMove} {s t : State} (h : Inv s) (ht : hostMove m s = .next t) :
    Inv t := by
  cases m with
  | reset =>
    obtain ⟨-, rfl⟩ := (hostReset_next_iff s t).1 ht
    exact inv_of_host_draws inv_reset _ _
  | writeTUnit us =>
    obtain ⟨hp, hu, rfl⟩ := (hostWriteTUnit_next_iff us s t).1 ht
    exact writeCfg_keeps_inv h hp hu
  | writeTxPin pin =>
    obtain ⟨hp, rfl⟩ := (hostWriteTxPin_next_iff pin s t).1 ht
    exact writeCfg_keeps_inv h hp h.unit_pos
  | writeEnPin pin =>
    obtain ⟨hp, rfl⟩ := (hostWriteEnPin_next_iff pin s t).1 ht
    exact writeCfg_keeps_inv h hp h.unit_pos
  | boot acquired =>
    obtain ⟨hp, hc, -, rfl⟩ := (hostBoot_next_iff acquired s t).1 ht
    exact boot_keeps_inv h hp hc
  | submit bs =>
    obtain ⟨hp, hb, rfl⟩ := (hostSubmit_next_iff bs s t).1 ht
    exact latchCommand_keeps_inv h hp hb bs
  | readStatus => cases ht; exact h
  | observePin => cases ht; exact h
  | shutdown =>
    obtain ⟨-, hb, rfl⟩ := (hostShutdown_next_iff s t).1 ht
    exact shutdown_keeps_inv h hb

/-! ### The two statements -/

/-- Settles O37: every clause is computed from the reset values. -/
theorem invHoldsAtReset : Obligations.InvHoldsAtReset :=
  inv_reset

/-- Settles O38: the turn taken from the host's list leaves the invariant alone, and the block's step and each move of
the host keep it. -/
theorem invKeptByEveryStep : Obligations.InvKeptByEveryStep := by
  intro s t h ht
  have hrest : ∀ rest, Inv { s with host := rest } := fun rest => inv_of_host_draws h rest s.draws
  cases hh : s.host with
  | nil => exact blockStep_keeps_inv h (step_of_no_host s hh ▸ ht)
  | cons turn rest =>
    cases turn with
    | wait => exact blockStep_keeps_inv (hrest rest) (step_of_wait s rest hh ▸ ht)
    | act m => exact hostMove_keeps_inv (hrest rest) (step_of_act s m rest hh ▸ ht)

end Sys2Proof.Machine

/-! PROOFS. What the block's own operations answer and leave unchanged: the codewords of the encoder
(41_codeword_encoder.md R147), the frames of the instructions and of a step (10_state.md R41, 40_command_parser.md
R119), what a step runs (R30, R173), and the moves that submit and configure (70_reset_and_hazards.md R243). -/

namespace Sys2Proof.Machine

open Sys2Proof.Claims

/-! ### The symbols of a codeword -/

theorem toList_of_five {α : Type} (v : Vector α 5) : v.toList = [v[0], v[1], v[2], v[3], v[4]] := by
  obtain ⟨⟨l⟩, hl⟩ := v
  match l, hl with
  | [_, _, _, _, _], _ => rfl

theorem joinCodeword_toList (y row : Vector Symbol 5) (suf : Vector Symbol 2) :
    (joinCodeword y row suf).toList = y.toList ++ row.toList ++ [suf[0], suf[1]] := by
  rw [toList_of_five y, toList_of_five row]
  rfl

/-- A channel row in the encoder's range has its single `S0` (R51). -/
theorem chRom_count_s0 {c : BitVec 3} (hc : channelInRange c = true) {row : Vector Symbol 5}
    (hr : chRom c = some row) : row.toList.count .s0 = 1 := by
  have hall : ∀ c : BitVec 3, channelInRange c = true →
      ∀ row ∈ chRom c, row.toList.count .s0 = 1 := by decide
  exact hall c hc row hr

/-- Zero to five `S0` from the address, one from the channel, one from the state (R143 to R145, R147). -/
theorem encodeCodeword_count_s0 {a : AddrChars} {c : BitVec 3} {on : Bool} {cw : Codeword}
    (h : encodeCodeword a c on = some cw) :
    2 ≤ cw.toList.count .s0 ∧ cw.toList.count .s0 ≤ 7 := by
  obtain ⟨-, hc, y, row, -, hr, rfl⟩ := encodeCodeword_some_cases h
  have hy : y.toList.count .s0 ≤ 5 := by simpa using List.count_le_length (a := Symbol.s0) (l := y.toList)
  have hrow : row.toList.count .s0 = 1 := chRom_count_s0 hc hr
  have hsuf : [(stRom on)[0], (stRom on)[1]].count .s0 = 1 := by cases on <;> rfl
  rw [joinCodeword_toList, List.count_append, List.count_append]
  omega

theorem encodeCodeword_last_two_ne {a : AddrChars} {c : BitVec 3} {on : Bool} {cw : Codeword}
    (h : encodeCodeword a c on = some cw) : cw[10] ≠ cw[11] := by
  obtain ⟨-, -, y, row, -, -, rfl⟩ := encodeCodeword_some_cases h
  show (stRom on)[0] ≠ (stRom on)[1]
  cases on <;> decide

/-- Settles O14, from the alphabet, the count and the suffix of an answered codeword. -/
theorem codewordAlphabetAndCounts : Obligations.CodewordAlphabetAndCounts := by
  intro a c on cw h
  obtain ⟨hmin, hmax⟩ := encodeCodeword_count_s0 h
  exact ⟨encodeCodeword_alphabet h, hmin, hmax, encodeCodeword_last_two_ne h⟩

/-! ### Frames -/

theorem isSymbolOp_iff (i : Instr) : IsSymbolOp i ↔ ∃ y, i = decodeSymbol y := by
  constructor
  · rintro (rfl | rfl | rfl | rfl)
    exacts [⟨.s0, rfl⟩, ⟨.s1, rfl⟩, ⟨.sf, rfl⟩, ⟨.other, rfl⟩]
  · rintro ⟨y, rfl⟩
    cases y <;> simp [IsSymbolOp, decodeSymbol]

/-- A symbol's step writes the pin, the trace and the position, wherever it is taken (R160, R166). -/
theorem stepSymbol_frame (y : Symbol) (s : State) :
    stepSymbol y s =
      { s with
        tx := (stepSymbol y s).tx, trace := (stepSymbol y s).trace, seq := (stepSymbol y s).seq } := by
  by_cases hq : ∃ rep sym pul half, s.seq = .tx rep (.data sym pul) half
  · obtain ⟨rep, sym, pul, half, hq⟩ := hq
    obtain ⟨-, he⟩ | ⟨row, -, -, he⟩ | ⟨row, -, -, he⟩ := stepSymbol_cases y s rep sym pul half hq <;>
      rw [he] <;> rfl
  · rw [stepSymbol_whole y s fun rep sym pul half h => hq ⟨rep, sym, pul, half, h⟩, sendSymbol_eq]

/-- The sync pulse's step writes nothing of the configuration, the phase and the enable pin, and no turn of the
host's (R41). -/
theorem syncHalf_keeps_configuration (rep : Fin 10) (half : Half) (s : State) :
    (syncHalf rep half s).cfg = s.cfg ∧ (syncHalf rep half s).phase = s.phase ∧
      (syncHalf rep half s).en = s.en ∧ (syncHalf rep half s).host = s.host := by
  obtain ⟨-, he⟩ | ⟨-, r, -, he⟩ | ⟨-, -, he⟩ := syncHalf_cases rep half s <;> simp [he]

/-- Settles O25: the two families of instructions, each by the frame of its one meaning. -/
theorem instructionFrames : Obligations.InstructionFrames := by
  refine ⟨fun i s t hi ht => ?_, fun i s t hi hw ht => ?_⟩
  · obtain ⟨y, rfl⟩ := (isSymbolOp_iff i).1 hi
    rw [exec_decodeSymbol] at ht
    cases ht
    exact stepSymbol_frame y s
  · obtain ⟨l, on, a, rfl⟩ | hy := Instr.family i
    · rw [commandInstr_wf] at hw
      rw [exec_commandInstr, acceptCommand_of_wf l on a s hw] at ht
      cases ht
      rfl
    · exact absurd ((isSymbolOp_iff i).2 hy) hi

/-- Settles O43, over the five things a step of the block can be. -/
theorem blockNeverWritesConfiguration : Obligations.BlockNeverWritesConfiguration := by
  intro s t ht
  obtain ⟨-, he⟩ | ⟨l, on, -, ha, he⟩ | ⟨e, -, -, he⟩ | ⟨rep, sym, pul, half, -, he⟩ |
    ⟨rep, half, -, he⟩ := blockStep_cases s <;> rw [he] at ht <;> cases ht
  · exact ⟨rfl, rfl, rfl, rfl⟩
  · rw [acceptCommand_of_wf l on _ s ha]
    exact ⟨rfl, rfl, rfl, rfl⟩
  · simp
  · rw [stepSymbol_frame]
    exact ⟨rfl, rfl, rfl, rfl⟩
  · exact syncHalf_keeps_configuration rep half s

/-! ### Reset -/

/-- Settles O36: the values are those of the definition. -/
theorem resetHasTheSpecsValues : Obligations.ResetHasTheSpecsValues := by
  unfold Obligations.ResetHasTheSpecsValues
  decide

/-! ### What a step runs -/

theorem step_of_blockTurn {s u : State} (h : BlockTurn s u) : step s = blockStep u := by
  obtain ⟨hh, rfl⟩ | ⟨rest, hh, rfl⟩ := h
  · exact step_of_no_host _ hh
  · exact step_of_wait s rest hh

/-- Taking the turn changes no register the block's step reads. -/
theorem blockTurn_fetched {s u : State} (h : BlockTurn s u) :
    u.seq = s.seq ∧ u.lenOk = s.lenOk ∧ u.cmd = s.cmd ∧ u.cw = s.cw := by
  obtain ⟨-, rfl⟩ | ⟨rest, -, rfl⟩ := h <;> exact ⟨rfl, rfl, rfl, rfl⟩

theorem decodeLatched_true (cmd : Vector Byte 7) : decodeLatched true cmd = decodeCommand cmd := rfl

/-- Settles O44: the position names the step, one lemma of the model a clause. -/
theorem stepRunsTheNamedInstruction : Obligations.StepRunsTheNamedInstruction := by
  intro s u hu
  rw [step_of_blockTurn hu]
  obtain ⟨hseq, hlen, hcmd, hcw⟩ := blockTurn_fetched hu
  rw [← hseq, ← hlen, ← hcmd, ← hcw]
  refine ⟨fun i hq hl hd => ?_, fun e hq hd => blockStep_reject u e hq hd,
    fun rep sym pul half hq => ?_, fun hq => blockStep_idle u hq⟩
  · exact blockStep_accept u i hq (by rw [hl, decodeLatched_true, hd])
  · rw [blockStep_data u rep sym pul half hq, exec_decodeSymbol]

theorem decodeTableWord_some_iff (nbits w : Nat) (i : Instr) :
    decodeTableWord nbits w = some i ↔ ∃ e, tableEncoding nbits w = some e ∧ decode e = .ok i := by
  unfold decodeTableWord
  cases tableEncoding nbits w with
  | none => simp
  | some e => cases hd : decode e <;> simp [hd]

/-- What is latched decodes as the string does: the latch loses nothing the decoder reads (R24, R85). -/
theorem decodeLatched_latchCommand (bs : List Byte) (s : State) :
    decodeLatched (latchCommand bs s).lenOk (latchCommand bs s).cmd = decodeBytes bs := by
  unfold decodeBytes latchCommand
  cases firstSeven bs <;> rfl

/-- Settles O45: a command word is latched, a symbol code stands at the transmission's first position. -/
theorem placedTableWordRuns : Obligations.PlacedTableWordRuns := by
  intro s nbits w i h
  obtain ⟨e, he, hd⟩ := (decodeTableWord_some_iff nbits w i).1 h
  cases e with
  | inl bs =>
    have hp : s.withFetchWord nbits w = latchCommand bs { s with host := [] } := by
      simp [State.withFetchWord, placeTableWord, he]
    rw [hp, step_of_no_host _ (by simp)]
    exact blockStep_accept _ i (by simp) ((decodeLatched_latchCommand bs _).trans hd)
  | inr code =>
    have hp : s.withFetchWord nbits w =
        { s with host := [], cw := s.cw.set 0 (Symbol.ofCode code), seq := Seq.repStart 0 } := by
      simp [State.withFetchWord, placeTableWord, he]
    obtain rfl : decodeSymbol (Symbol.ofCode code) = i := by simpa [decode] using hd
    rw [hp, step_of_no_host _ rfl, blockStep_data _ 0 0 0 .h rfl, exec_decodeSymbol]
    simp

/-! ### The moves that submit and configure -/

theorem hostSubmit_wrongPhase (bs : List Byte) {s : State} (hp : s.phase ≠ .active) :
    hostSubmit bs s = .refused .submitWrongPhase := by
  simp [hostSubmit, hp]

theorem hostSubmit_whileBusy (bs : List Byte) {s : State} (hp : s.phase = .active) (hb : s.busy = true) :
    hostSubmit bs s = .refused .submitWhileBusy := by
  simp [hostSubmit, hp, hb]

/-- Settles O46, from the two refusals of a submission and the two cases of the latch. -/
theorem submissionIsLatchedOrRefused : Obligations.SubmissionIsLatchedOrRefused := by
  intro s bs rest hh
  rw [step_of_act s _ rest hh]
  have hlatch : s.phase = .active → s.busy = false →
      hostMove (.submit bs) { s with host := rest } = .next (latchCommand bs { s with host := rest }) :=
    fun hp hb => (hostSubmit_next_iff bs _ _).2 ⟨hp, hb, rfl⟩
  refine ⟨fun hp => hostSubmit_wrongPhase bs hp, fun hp hb => hostSubmit_whileBusy bs hp hb,
    fun hp hb hl => ?_, fun hp hb hl => ?_⟩
  · obtain ⟨cmd, hf⟩ := Option.ne_none_iff_exists'.1 (mt (firstSeven_none_iff bs).1 (by omega))
    exact ⟨cmd, firstSeven_getElem bs cmd hf, by rw [hlatch hp hb, latchCommand_some bs _ cmd hf]⟩
  · rw [hlatch hp hb, latchCommand_none bs _ ((firstSeven_none_iff bs).2 hl)]
    exact ⟨_, rfl, rfl⟩

theorem hostWriteTUnit_wrongPhase (us : Nat) {s : State} (hp : s.phase ≠ .init) :
    hostWriteTUnit us s = .refused .configWrongPhase := by
  simp [hostWriteTUnit, hp]

theorem hostWriteTUnit_zero {s : State} (hp : s.phase = .init) :
    hostWriteTUnit 0 s = .refused .zeroTUnit := by
  simp [hostWriteTUnit, hp]

theorem hostWriteTxPin_wrongPhase (pin : PinId) {s : State} (hp : s.phase ≠ .init) :
    hostWriteTxPin pin s = .refused .configWrongPhase := by
  simp [hostWriteTxPin, hp]

theorem hostWriteEnPin_wrongPhase (pin : PinId) {s : State} (hp : s.phase ≠ .init) :
    hostWriteEnPin pin s = .refused .configWrongPhase := by
  simp [hostWriteEnPin, hp]

/-- Settles O47: the three writes, each refused or answered by its own lemma. -/
theorem configurationIsWrittenInInitOnly : Obligations.ConfigurationIsWrittenInInitOnly := by
  intro s us pin rest
  refine ⟨fun hh => ?_, fun hh => ?_, fun hh => ?_⟩ <;> rw [step_of_act s _ rest hh]
  · refine ⟨fun hp => hostWriteTUnit_wrongPhase us hp, ?_, fun hp hu => ?_⟩
    · rintro hp rfl
      exact hostWriteTUnit_zero hp
    · exact (hostWriteTUnit_next_iff us _ _).2 ⟨hp, hu, rfl⟩
  · exact ⟨fun hp => hostWriteTxPin_wrongPhase pin hp,
      fun hp => (hostWriteTxPin_next_iff pin _ _).2 ⟨hp, rfl⟩⟩
  · exact ⟨fun hp => hostWriteEnPin_wrongPhase pin hp,
      fun hp => (hostWriteEnPin_next_iff pin _ _).2 ⟨hp, rfl⟩⟩

end Sys2Proof.Machine

/-! PROOFS. `BUSY` from submission to the end of a command (10_state.md R31, 70_reset_and_hazards.md R242, R244): the
steps left at each position of the sequencer, and the countdown of an accepted command left alone. -/

namespace Sys2Proof.Machine

open Sys2Proof.Claims

/-! ### The steps left at a position -/

/-- The steps left in a pulse, the one its position names among them (R173). -/
def Half.stepsLeft : Half → Nat
  | .h => 2
  | .l => 1

/-- The steps left in a repetition after the pulse at `slot`: four a symbol, two a pulse, and two of the sync pulse
(R173). -/
def Slot.stepsLeft : Slot → Nat
  | .data sym pul => 4 * (11 - sym.val) + 2 * (1 - pul.val) + 2
  | .sync => 0

/-- The steps left until the command ends, for a command that is accepted and a codeword of the encoder: 50 for each
repetition still to come, and 501 before the parsing step (R244). -/
def Seq.stepsLeft : Seq → Nat
  | .idle => 0
  | .parse => 501
  | .tx rep slot half => 50 * (9 - rep.val) + slot.stepsLeft + half.stepsLeft

theorem Seq.stepsLeft_eq_zero_iff (q : Seq) : q.stepsLeft = 0 ↔ q = .idle := by
  cases q with
  | idle => simp [Seq.stepsLeft]
  | parse => simp [Seq.stepsLeft]
  | tx rep slot half => cases half <;> simp [Seq.stepsLeft, Half.stepsLeft]

theorem Seq.stepsLeft_afterSymbol (rep : Fin 10) (sym : Fin 12) :
    (Seq.afterSymbol rep sym).stepsLeft + 1 = (Seq.tx rep (.data sym 1) .l).stepsLeft := by
  obtain ⟨hs, he⟩ | ⟨rfl, he⟩ := Seq.afterSymbol_cases rep sym <;> rw [he] <;>
    simp [Seq.stepsLeft, Slot.stepsLeft, Half.stepsLeft]
  omega

theorem Seq.stepsLeft_afterPulse (rep : Fin 10) (sym : Fin 12) (pul : Fin 2) :
    (Seq.afterPulse rep sym pul).stepsLeft + 1 = (Seq.tx rep (.data sym pul) .l).stepsLeft := by
  match pul with
  | 0 => rfl
  | 1 => exact Seq.stepsLeft_afterSymbol rep sym

theorem stepsLeft_of_nextRep_some {rep r : Fin 10} (h : nextRep rep = some r) :
    (Seq.repStart r).stepsLeft + 1 = (Seq.tx rep .sync .l).stepsLeft := by
  unfold nextRep at h
  split at h
  · cases h
    simp [Seq.repStart, Seq.stepsLeft, Slot.stepsLeft, Half.stepsLeft]
    omega
  · cases h

theorem stepsLeft_of_nextRep_none {rep : Fin 10} (h : nextRep rep = none) :
    (Seq.tx rep .sync .l).stepsLeft = 1 := by
  unfold nextRep at h
  split at h
  · cases h
  · simp [Seq.stepsLeft, Slot.stepsLeft, Half.stepsLeft]
    omega

/-! ### The countdown -/

/-- The host does nothing any more, and `n` steps of the block's own are left to the end of its command: what is
latched will be accepted, and what is being sent has a row of `PULSEROM` for every symbol. -/
structure EndsIn (n : Nat) (s : State) : Prop where
  no_host : s.host = []
  left : s.seq.stepsLeft = n
  accepted : s.seq = .parse → ∃ i, decodeLatched s.lenOk s.cmd = .ok i
  symbols : s.seq.isTx = true → ∀ sym : Fin 12, s.cw[sym] ≠ .other

theorem EndsIn.busy_eq {n : Nat} {s : State} (h : EndsIn n s) : s.busy = decide (n ≠ 0) := by
  obtain ⟨-, rfl, -, -⟩ := h
  rw [Bool.eq_iff_iff, busy_eq_true_iff, decide_eq_true_iff, Ne, Ne, Seq.stepsLeft_eq_zero_iff]

theorem endsIn_of_idle {s : State} (hh : s.host = []) (hq : s.seq = .idle) : EndsIn 0 s :=
  ⟨hh, by rw [hq]; rfl, fun h => by simp [hq] at h, fun h => by simp [hq, Seq.isTx] at h⟩

/-- Inside a transmission a step that leaves the host and the codeword alone has only the position to account for. -/
theorem endsIn_of_tx {n : Nat} {s t : State} (h : EndsIn (n + 1) s) (hs : s.seq.isTx = true)
    (hh : t.host = s.host) (hc : t.cw = s.cw) (ht : t.seq.isTx = true)
    (hl : t.seq.stepsLeft + 1 = s.seq.stepsLeft) : EndsIn n t where
  no_host := hh.trans h.no_host
  left := Nat.succ.inj (hl.trans h.left)
  accepted hp := by simp [hp, Seq.isTx] at ht
  symbols _ := by rw [hc]; exact h.symbols hs

/-- The parsing step of a command that is accepted enters a transmission of 500 steps (R118, R244). -/
theorem endsIn_acceptCommand {s : State} (hh : s.host = []) (l : Letter) (on : Bool) {a : AddrChars}
    (ha : wfAddr a = true) : EndsIn 500 (acceptCommand l on a s) := by
  rw [acceptCommand_of_wf l on a s ha]
  exact ⟨hh, rfl, nofun, fun _ => encodeCodeword_ne_other (encodeCodeword_command l on a ha)⟩

theorem endsIn_stepSymbol {n : Nat} {s : State} (h : EndsIn (n + 1) s) {rep : Fin 10} {sym : Fin 12}
    {pul : Fin 2} {half : Half} (hq : s.seq = .tx rep (.data sym pul) half) :
    EndsIn n (stepSymbol s.cw[sym] s) := by
  have hs : s.seq.isTx = true := by rw [hq]; rfl
  obtain ⟨hn, -⟩ | ⟨row, -, rfl, he⟩ | ⟨row, -, rfl, he⟩ :=
    stepSymbol_cases s.cw[sym] s rep sym pul half hq
  · exact absurd ((pulseRom_none_iff _).1 hn) (h.symbols hs sym)
  · rw [he]
    exact endsIn_of_tx h hs rfl rfl rfl (by rw [hq]; rfl)
  · rw [he]
    exact endsIn_of_tx h hs rfl rfl (Seq.afterPulse_isTx rep sym pul)
      (by rw [hq]; exact Seq.stepsLeft_afterPulse rep sym pul)

theorem endsIn_syncHalf {n : Nat} {s : State} (h : EndsIn (n + 1) s) {rep : Fin 10} {half : Half}
    (hq : s.seq = .tx rep .sync half) : EndsIn n (syncHalf rep half s) := by
  have hs : s.seq.isTx = true := by rw [hq]; rfl
  have hleft := h.left
  rw [hq] at hleft
  obtain ⟨rfl, he⟩ | ⟨rfl, r, hr, he⟩ | ⟨rfl, hr, he⟩ := syncHalf_cases rep half s <;> rw [he]
  · exact endsIn_of_tx h hs rfl rfl rfl (by rw [hq]; rfl)
  · exact endsIn_of_tx h hs rfl rfl rfl (by rw [hq]; exact stepsLeft_of_nextRep_some hr)
  · obtain rfl : n = 0 := by rw [stepsLeft_of_nextRep_none hr] at hleft; omega
    exact endsIn_of_idle h.no_host rfl

/-- Each step takes one off the count. -/
theorem step_endsIn {n : Nat} {s : State} (h : EndsIn (n + 1) s) :
    ∃ t, step s = .next t ∧ EndsIn n t := by
  rw [step_of_no_host s h.no_host]
  obtain ⟨hq, -⟩ | ⟨l, on, hq, ha, he⟩ | ⟨e, hq, hd, -⟩ | ⟨rep, sym, pul, half, hq, he⟩ |
    ⟨rep, half, hq, he⟩ := blockStep_cases s
  · exact absurd h.left (by rw [hq]; exact nofun)
  · obtain rfl : n = 500 := by
      have hleft := h.left
      rw [hq] at hleft
      exact (Nat.succ.inj hleft).symm
    exact ⟨_, he, endsIn_acceptCommand h.no_host l on ha⟩
  · obtain ⟨i, hi⟩ := h.accepted hq
    simp [hi] at hd
  · exact ⟨_, he, endsIn_stepSymbol h hq⟩
  · exact ⟨_, he, endsIn_syncHalf h hq⟩

theorem runSteps_endsIn (k n : Nat) (s : State) (h : EndsIn (k + n) s) :
    ∃ t, runSteps k s = .next t ∧ EndsIn n t := by
  induction k generalizing s with
  | zero => exact ⟨s, rfl, by simpa using h⟩
  | succ k ih =>
    obtain ⟨u, hu, hn⟩ := step_endsIn (Nat.succ_add_eq_add_succ k n ▸ h : EndsIn (k + n + 1) s)
    obtain ⟨t, ht, hc⟩ := ih u hn
    exact ⟨t, (runSteps_succ k s u hu).trans ht, hc⟩

/-! ### From the submission -/

/-- A submission that may be made is the latch, and the host does nothing after it (R24, R234). -/
theorem step_of_submits {s : State} {bs : List Byte} (h : Submits s bs) :
    step s = .next (latchCommand bs { s with host := [] }) := by
  obtain ⟨hp, hb, hh⟩ := h
  rw [step_of_act s _ [] hh]
  exact (hostSubmit_next_iff bs _ _).2 ⟨hp, hb, rfl⟩

theorem endsIn_latchCommand {bs : List Byte} {i : Instr} (hd : decodeBytes bs = .ok i) {s : State}
    (hh : s.host = []) : EndsIn 501 (latchCommand bs s) where
  no_host := by simpa using hh
  left := by rw [latchCommand_seq]; rfl
  accepted _ := ⟨i, (decodeLatched_latchCommand bs s).trans hd⟩
  symbols h := by simp [Seq.isTx] at h

/-- Counted from the submission's own step, an accepted command ends after 502 steps (R244). -/
theorem runSteps_submits_accepted {s : State} {bs : List Byte} {i : Instr} (h : Submits s bs)
    (hd : decodeBytes bs = .ok i) (k n : Nat) (hk : k + n = 501) :
    ∃ t, runSteps (k + 1) s = .next t ∧ EndsIn n t := by
  rw [runSteps_succ k s _ (step_of_submits h)]
  exact runSteps_endsIn k n _ (hk ▸ endsIn_latchCommand hd rfl)

/-- The parsing step of a string that does not decode rejects it (R111 to R114). -/
theorem step_latchCommand_error {bs : List Byte} {e : CmdError} (hd : decodeBytes bs = .error e)
    {s : State} (hh : s.host = []) :
    step (latchCommand bs s) = .next (rejectCommand e (latchCommand bs s)) := by
  rw [step_of_no_host _ (by simpa using hh)]
  exact blockStep_reject _ e (by simp) ((decodeLatched_latchCommand bs s).trans hd)

/-- Settles O31: an accepted command counts down from 501 after its submission, a rejected one is idle after its
parsing step. -/
theorem busyFromSubmissionToTheEnd : Obligations.BusyFromSubmissionToTheEnd := by
  intro s bs h
  refine ⟨fun ⟨i, hd⟩ => ⟨fun k hk hk' => ?_, ?_⟩, fun ⟨e, hd⟩ => ⟨?_, ?_⟩⟩
  · obtain ⟨m, rfl⟩ := Nat.exists_eq_add_of_le' hk
    obtain ⟨t, ht, hn⟩ := runSteps_submits_accepted h hd m (501 - m) (by omega)
    exact ⟨t, ht, by rw [hn.busy_eq]; simp; omega⟩
  · obtain ⟨t, ht, hn⟩ := runSteps_submits_accepted h hd 501 0 rfl
    exact ⟨t, ht, hn.busy_eq⟩
  · exact ⟨_, runSteps_succ 0 s _ (step_of_submits h), by simp [State.busy]⟩
  · rw [runSteps_succ 1 s _ (step_of_submits h), runSteps_succ 0 _ _ (step_latchCommand_error hd rfl)]
    exact ⟨_, rfl, by simp [State.busy]⟩

end Sys2Proof.Machine

/-! PROOFS. The packed words (20_memory.md R60), the decoder's errors (30_encoding.md R89, 60_exceptions.md R198) and
the trace of a command (20_memory.md R64): what each of `packCmd56`, `packCw24`, `decodeCommand`, `decodeBytes`,
`transmit` and `parseAndSend` answers, and from these three statements. -/

namespace Sys2Proof

/-! ### The packed words -/

theorem unpackCmd56_packCmd56 (cmd : Vector Byte 7) : unpackCmd56 (packCmd56 cmd) = cmd := by
  simp (disch := omega) only [unpackCmd56, packCmd56, BitVec.extractLsb'_cast,
    BitVec.extractLsb'_append_eq_of_le, BitVec.extractLsb'_append_eq_of_add_le]
  ext i hi : 1
  interval_cases i <;> simp

theorem packCmd56_unpackCmd56 (w : BitVec 56) : packCmd56 (unpackCmd56 w) = w := by
  show (w.extractLsb' 48 8 ++ w.extractLsb' 40 8 ++ w.extractLsb' 32 8 ++ w.extractLsb' 24 8 ++
    w.extractLsb' 16 8 ++ w.extractLsb' 8 8 ++ w.extractLsb' 0 8).cast _ = w
  simp (disch := omega) only [BitVec.extractLsb'_append_extractLsb'_eq_extractLsb']
  exact BitVec.extractLsb'_eq_self

/-- The codeword of a packed word: symbol `i` from bits `[23-2i : 22-2i]` (R60, R88). -/
def unpackCw24 (w : BitVec 24) : Codeword :=
  Vector.ofFn fun i : Fin 12 => Symbol.ofCode (w.extractLsb' (22 - 2 * i.val) 2)

theorem unpackCw24_packCw24 (cw : Codeword) : unpackCw24 (packCw24 cw) = cw := by
  ext i hi : 1
  simp only [unpackCw24, packCw24, Vector.getElem_ofFn, BitVec.extractLsb'_cast]
  interval_cases i <;>
    simp (disch := omega) only [BitVec.extractLsb'_append_eq_of_le,
      BitVec.extractLsb'_append_eq_of_add_le] <;>
    simp

/-- Settles O4: each packing has an unpacking that undoes it. -/
theorem packedWordsLoseNothing : Obligations.PackedWordsLoseNothing :=
  ⟨unpackCmd56_packCmd56, packCmd56_unpackCmd56,
    fun _ _ h => Function.LeftInverse.injective unpackCw24_packCw24 h⟩

/-! ### Which error is reported, and when -/

theorem decodeLetter_none_iff (c : Byte) :
    decodeLetter c = none ↔ c ≠ Byte.charA ∧ c ≠ Byte.charB ∧ c ≠ Byte.charC ∧ c ≠ Byte.charD := by
  simp only [Option.eq_none_iff_forall_ne_some, ne_eq, decodeLetter_some_iff]
  constructor
  · exact fun h => ⟨h .a, h .b, h .c, h .d⟩
  · rintro ⟨ha, hb, hc, hd⟩ (_ | _ | _ | _) <;> assumption

theorem decodeState_none_iff (c : Byte) :
    decodeState c = none ↔ c ≠ Byte.char0 ∧ c ≠ Byte.char1 := by
  simp [Option.eq_none_iff_forall_ne_some, decodeState_some_iff, stateChar]

/-- The cases of an error are exactly the steps that can fail, in their order (R89, R198). -/
theorem decodeCommand_error_iff (cmd : Vector Byte 7) (e : CmdError) :
    decodeCommand cmd = .error e ↔
      (∃ p, e = .invalidAddressChar (addrField cmd)[p] p ∧ firstBadAddr (addrField cmd) = some p) ∨
      (e = .invalidChannelChar cmd[5] ∧ wfAddr (addrField cmd) = true ∧
        decodeLetter cmd[5] = none) ∨
      (e = .invalidStateChar cmd[6] ∧ wfAddr (addrField cmd) = true ∧
        (∃ l, decodeLetter cmd[5] = some l) ∧ decodeState cmd[6] = none) := by
  refine ⟨decodeCommand_error_cases cmd e, ?_⟩
  rintro (⟨p, rfl, hp⟩ | ⟨rfl, ha, hl⟩ | ⟨rfl, ha, ⟨l, hl⟩, hs⟩)
  · simp [decodeCommand, hp]
  · simp [decodeCommand, (firstBadAddr_none_iff _).2 ha, hl]
  · simp [decodeCommand, (firstBadAddr_none_iff _).2 ha, hl, hs]

/-- A byte string is too short, or starts with the seven characters that are decoded (R24, R61). -/
theorem decodeBytes_cases (bs : List Byte) :
    (bs.length < 7 ∧ decodeBytes bs = .error .invalidLength) ∨
    ∃ cmd : Vector Byte 7, 7 ≤ bs.length ∧ decodeBytes bs = decodeCommand cmd ∧
      ∀ i : Fin 7, bs[i.val]? = some cmd[i] := by
  cases hf : firstSeven bs with
  | none => exact .inl ⟨(firstSeven_none_iff bs).1 hf, by simp [decodeBytes, hf]⟩
  | some cmd =>
    have hlen : ¬ bs.length < 7 := fun h => by simp [(firstSeven_none_iff bs).2 h] at hf
    exact .inr ⟨cmd, by omega, by simp [decodeBytes, hf], firstSeven_getElem bs cmd hf⟩

/-- The address characters are the string's first five (R58, R82). -/
theorem addrField_getElem_of_string {bs : List Byte} {cmd : Vector Byte 7}
    (hget : ∀ i : Fin 7, bs[i.val]? = some cmd[i]) (q : Fin 5) :
    bs[q.val]? = some (addrField cmd)[q] := by
  rw [addrField_getElem]
  exact hget ⟨q.val, by omega⟩

theorem decodeBytes_invalidLength_iff (bs : List Byte) :
    decodeBytes bs = .error .invalidLength ↔ bs.length < 7 := by
  obtain ⟨hlen, hd⟩ | ⟨cmd, hlen, hd, -⟩ := decodeBytes_cases bs
  · simp [hd, hlen]
  · simp [hd, decodeCommand_error_iff, hlen]

theorem decodeBytes_invalidAddressChar_iff (bs : List Byte) (c : Byte) (p : Fin 5) :
    decodeBytes bs = .error (.invalidAddressChar c p) ↔
      7 ≤ bs.length ∧ bs[p.val]? = some c ∧ isAddrChar c = false ∧
        ∀ q : Fin 5, q < p → ∃ d, bs[q.val]? = some d ∧ isAddrChar d = true := by
  obtain ⟨hlen, hd⟩ | ⟨cmd, hlen, hd, hget⟩ := decodeBytes_cases bs
  · simp [hd, hlen]
  · have haddr := addrField_getElem_of_string hget
    simp only [hd, decodeCommand_error_iff, firstBadAddr_some_iff, haddr, hlen, Fin.getElem_fin,
      CmdError.invalidAddressChar.injEq, ↓existsAndEq, and_true, reduceCtorEq, false_and, or_self, or_false,
      Option.some.injEq, exists_eq_left', true_and]
    constructor <;> (rintro ⟨rfl, h⟩; exact ⟨rfl, h⟩)

theorem decodeBytes_invalidChannelChar_iff (bs : List Byte) (c : Byte) :
    decodeBytes bs = .error (.invalidChannelChar c) ↔
      7 ≤ bs.length ∧ (∀ q : Fin 5, ∃ d, bs[q.val]? = some d ∧ isAddrChar d = true) ∧
        bs[5]? = some c ∧ c ≠ Byte.charA ∧ c ≠ Byte.charB ∧ c ≠ Byte.charC ∧ c ≠ Byte.charD := by
  obtain ⟨hlen, hd⟩ | ⟨cmd, hlen, hd, hget⟩ := decodeBytes_cases bs
  · simp [hd, hlen]
  · have haddr := addrField_getElem_of_string hget
    have hchan : bs[5]? = some cmd[5] := hget 5
    simp only [hd, decodeCommand_error_iff, wfAddr_iff, haddr, hchan, hlen, decodeLetter_none_iff,
      Fin.getElem_fin, reduceCtorEq, false_and, exists_const, CmdError.invalidChannelChar.injEq, ne_eq, or_false,
      false_or, Option.some.injEq, exists_eq_left', true_and]
    constructor
    · rintro ⟨rfl, ha, hl⟩
      exact ⟨ha, rfl, hl⟩
    · rintro ⟨ha, rfl, hl⟩
      exact ⟨rfl, ha, hl⟩

theorem decodeBytes_invalidStateChar_iff (bs : List Byte) (c : Byte) :
    decodeBytes bs = .error (.invalidStateChar c) ↔
      7 ≤ bs.length ∧ (∀ q : Fin 5, ∃ d, bs[q.val]? = some d ∧ isAddrChar d = true) ∧
        (∃ l : Letter, bs[5]? = some l.char) ∧ bs[6]? = some c ∧ c ≠ Byte.char0 ∧ c ≠ Byte.char1 := by
  obtain ⟨hlen, hd⟩ | ⟨cmd, hlen, hd, hget⟩ := decodeBytes_cases bs
  · simp [hd, hlen]
  · have haddr := addrField_getElem_of_string hget
    have hchan : bs[5]? = some cmd[5] := hget 5
    have hstate : bs[6]? = some cmd[6] := hget 6
    simp only [hd, decodeCommand_error_iff, wfAddr_iff, haddr, hchan, hstate, hlen, decodeLetter_some_iff,
      decodeState_none_iff, Fin.getElem_fin, reduceCtorEq, false_and, exists_const,
      CmdError.invalidStateChar.injEq, ne_eq, false_or, Option.some.injEq, exists_eq_left', true_and]
    constructor
    · rintro ⟨rfl, ha, hl, hs⟩
      exact ⟨ha, hl, rfl, hs⟩
    · rintro ⟨ha, hl, rfl, hs⟩
      exact ⟨rfl, ha, hl, hs⟩

/-- The decoder never reports `InvalidEncoding` (R117, R195). -/
theorem decodeBytes_ne_invalidEncoding (bs : List Byte) : decodeBytes bs ≠ .error .invalidEncoding := by
  obtain ⟨-, hd⟩ | ⟨cmd, -, hd, -⟩ := decodeBytes_cases bs
  · simp [hd]
  · rw [hd]
    exact Machine.decodeLatched_ne_invalidEncoding true cmd

/-- Settles O7: one equivalence for each error. -/
theorem decoderReportsTheFirstError : Obligations.DecoderReportsTheFirstError := fun bs =>
  ⟨decodeBytes_invalidLength_iff bs, decodeBytes_invalidAddressChar_iff bs,
    decodeBytes_invalidChannelChar_iff bs, decodeBytes_invalidStateChar_iff bs,
    decodeBytes_ne_invalidEncoding bs⟩

/-- An accepted string is a command with a good address (R80, R87). -/
theorem decodeBytes_ok_cases {bs : List Byte} {i : Instr} (hd : decodeBytes bs = .ok i) :
    ∃ l on a, wfAddr a = true ∧ i = commandInstr l on a := by
  obtain ⟨-, hl⟩ | ⟨cmd, -, hc, -⟩ := decodeBytes_cases bs
  · simp [hd] at hl
  · obtain ⟨l, on, ha, -, -, rfl⟩ := (decodeCommand_ok_iff cmd i).1 (hc ▸ hd)
    exact ⟨l, on, _, ha, rfl⟩

end Sys2Proof

namespace Sys2Proof.Machine

open Sys2Proof.Claims

/-! ### The trace of a command -/

/-- One repetition or more append their pulses' events and leave the pin low; nothing else changes (R161). -/
theorem sendRepetitions_succ_eq (cw : Codeword) (n : Nat) (s : State) :
    sendRepetitions cw (n + 1) s =
      { s with
        trace := s.trace ++
          (List.replicate (n + 1) (repetitionPulses cw)).flatten.flatMap (pulseEvents s.cfg.tUnit),
        tx := .low } := by
  induction n generalizing s with
  | zero => simp [sendRepetitions, sendRepetition_eq]
  | succ n ih =>
    rw [sendRepetitions, ih, sendRepetition_eq]
    simp [List.replicate_succ (n := n + 1)]

/-- `TRANSMIT` appends the waveform and leaves the pin low; nothing else changes (R172). -/
theorem transmit_eq (cw : Codeword) (s : State) :
    transmit cw s =
      { s with trace := s.trace ++ transmissionEvents s.cfg.tUnit cw, tx := .low } :=
  sendRepetitions_succ_eq cw 9 s

/-- A string that does not decode is latched and rejected (R111 to R114, R118). -/
theorem parseAndSend_of_error {bs : List Byte} {e : CmdError} (hd : decodeBytes bs = .error e)
    (s : State) : parseAndSend bs s = rejectCommand e (latchCommand bs s) := by
  rw [← decodeLatched_latchCommand bs s] at hd
  simp only [parseAndSend]
  generalize latchCommand bs s = t at hd ⊢
  cases hlen : t.lenOk with
  | false =>
    obtain rfl : .invalidLength = e := by simpa [decodeLatched, hlen] using hd
    rfl
  | true =>
    rw [hlen, decodeLatched_true] at hd
    obtain ⟨p, rfl, hp⟩ | ⟨rfl, ha, hl⟩ | ⟨rfl, ha, ⟨l, hl⟩, hs⟩ := decodeCommand_error_cases t.cmd e hd
    · simp [hp, rejectCommand]
    · simp [(firstBadAddr_none_iff _).2 ha, hl, rejectCommand]
    · simp [(firstBadAddr_none_iff _).2 ha, hl, hs, rejectCommand]

/-- A string that decodes is latched, its fields and its codeword are written, and the codeword is transmitted
(R118). -/
theorem parseAndSend_of_ok {bs : List Byte} {l : Letter} {on : Bool} {a : AddrChars}
    (hd : decodeBytes bs = .ok (commandInstr l on a)) (s : State) :
    parseAndSend bs s =
      completeCommand (transmit (commandCodeword l on a) (writeCw (commandCodeword l on a)
        (writeFields (channelOf l) on (writeAddr a (latchCommand bs s))))) := by
  rw [← decodeLatched_latchCommand bs s] at hd
  simp only [parseAndSend]
  generalize latchCommand bs s = t at hd ⊢
  cases hlen : t.lenOk with
  | false => simp [decodeLatched, hlen] at hd
  | true =>
    rw [hlen, decodeLatched_true] at hd
    obtain ⟨l', on', ha, hl, hs, hi⟩ := (decodeCommand_ok_iff t.cmd _).1 hd
    obtain ⟨rfl, rfl, rfl⟩ := commandInstr_injective hi
    simp [(firstBadAddr_none_iff _).2 ha, (decodeLetter_some_iff _ _).2 hl,
      (decodeState_some_iff _ _).2 hs, encodeCodeword_command _ _ _ ha]

@[simp] theorem parseAndSend_cfg (bs : List Byte) (s : State) : (parseAndSend bs s).cfg = s.cfg := by
  cases hd : decodeBytes bs with
  | error e => simp [parseAndSend_of_error hd]
  | ok i =>
    obtain ⟨l, on, a, -, rfl⟩ := decodeBytes_ok_cases hd
    simp [parseAndSend_of_ok hd, transmit_eq]

/-- For one unit duration a command appends the same events whatever the state (R64 (2), R128). -/
theorem parseAndSend_appends (T : Nat) (bs : List Byte) :
    ∃ es, ∀ s : State, s.cfg.tUnit = T → (parseAndSend bs s).trace = s.trace ++ es := by
  cases hd : decodeBytes bs with
  | error e => exact ⟨[], fun s _ => by simp [parseAndSend_of_error hd]⟩
  | ok i =>
    obtain ⟨l, on, a, -, rfl⟩ := decodeBytes_ok_cases hd
    exact ⟨transmissionEvents T (commandCodeword l on a), fun s hs => by
      simp [parseAndSend_of_ok hd, transmit_eq, hs]⟩

/-- What a command appends is its trace from reset (R64 (2)). -/
theorem parseAndSend_trace (bs : List Byte) (s : State) :
    (parseAndSend bs s).trace = s.trace ++ commandTrace s.cfg.tUnit bs := by
  obtain ⟨es, hes⟩ := parseAndSend_appends s.cfg.tUnit bs
  have hreset : commandTrace s.cfg.tUnit bs = es := hes _ rfl
  rw [hes s rfl, hreset]

/-- Settles O34, by induction on the list of commands: the configuration stays, so each command appends its trace. -/
theorem tracesOfCommandsConcatenate : Obligations.TracesOfCommandsConcatenate := by
  intro cmds
  induction cmds with
  | nil => simp
  | cons bs cmds ih => intro s; simp [ih, parseAndSend_trace]

end Sys2Proof.Machine

/-! PROOFS. The command encoding (30_encoding.md R80 to R95): a command string as the encoder writes it and as the
decoder reads it, its packed word under the mask of the opcode map, and the characters beyond the seventh. -/

namespace Sys2Proof

/-! ### The seven characters of a command -/

theorem Letter.char_injective : Function.Injective Letter.char := fun l l' h =>
  Option.some.inj (((decodeLetter_some_iff _ l).2 rfl).symm.trans ((decodeLetter_some_iff _ l').2 h))

theorem stateChar_injective : Function.Injective stateChar := fun on on' h =>
  Option.some.inj (((decodeState_some_iff _ on).2 rfl).symm.trans ((decodeState_some_iff _ on').2 h))

/-- Seven characters are a command's exactly when their three fields are (R80, R82 to R84). -/
theorem eq_commandChars_iff (cmd : Vector Byte 7) (l : Letter) (on : Bool) (a : AddrChars) :
    cmd = commandChars l on a ↔ addrField cmd = a ∧ cmd[5] = l.char ∧ cmd[6] = stateChar on := by
  constructor
  · rintro rfl
    refine ⟨?_, rfl, rfl⟩
    ext i hi : 1
    interval_cases i <;> rfl
  · rintro ⟨rfl, hl, hs⟩
    ext i hi : 1
    interval_cases i <;> simp [commandChars, addrField, hl, hs]

/-- The accepted seven characters are exactly those the encoder writes for a good address (R80, R87, R93). -/
theorem decodeCommand_ok_iff_commandChars (cmd : Vector Byte 7) (i : Instr) :
    decodeCommand cmd = .ok i ↔
      ∃ l on a, wfAddr a = true ∧ i = commandInstr l on a ∧ cmd = commandChars l on a := by
  simp only [decodeCommand_ok_iff, eq_commandChars_iff]
  constructor
  · rintro ⟨l, on, ha, hl, hs, rfl⟩
    exact ⟨l, on, _, ha, rfl, rfl, hl, hs⟩
  · rintro ⟨l, on, _, ha, rfl, rfl, hl, hs⟩
    exact ⟨l, on, ha, hl, hs, rfl⟩

/-- A string is accepted exactly when it starts with seven accepted characters (R85, R89). -/
theorem decodeBytes_ok_iff (bs : List Byte) (i : Instr) :
    decodeBytes bs = .ok i ↔ ∃ cmd t, bs = cmd.toList ++ t ∧ decodeCommand cmd = .ok i := by
  simp only [← firstSeven_some_iff, exists_and_right]
  cases hf : firstSeven bs <;> simp [decodeBytes, hf]

/-- Settles O2: the accepted seven characters are the encoder's, and a string is accepted by its first seven. -/
theorem acceptedStringsAreTheCommands : Obligations.AcceptedStringsAreTheCommands := by
  intro bs i
  simp only [decodeBytes_ok_iff, decodeCommand_ok_iff_commandChars]
  constructor
  · rintro ⟨_, t, rfl, l, on, a, ha, rfl, rfl⟩
    exact ⟨l, on, a, t, ha, rfl, rfl⟩
  · rintro ⟨l, on, a, t, ha, rfl, rfl⟩
    exact ⟨_, t, rfl, l, on, a, ha, rfl, rfl⟩

/-! ### Every instruction is read back -/

/-- The opcode map and the symbol codes name every instruction (R87, R88). -/
theorem Instr.command_or_symbol (i : Instr) :
    (∃ l on a, i = commandInstr l on a) ∨ ∃ y, i = decodeSymbol y := by
  cases i with
  | swAOff a => exact .inl ⟨.a, false, a, rfl⟩
  | swAOn a => exact .inl ⟨.a, true, a, rfl⟩
  | swBOff a => exact .inl ⟨.b, false, a, rfl⟩
  | swBOn a => exact .inl ⟨.b, true, a, rfl⟩
  | swCOff a => exact .inl ⟨.c, false, a, rfl⟩
  | swCOn a => exact .inl ⟨.c, true, a, rfl⟩
  | swDOff a => exact .inl ⟨.d, false, a, rfl⟩
  | swDOn a => exact .inl ⟨.d, true, a, rfl⟩
  | tx0 => exact .inr ⟨.s0, rfl⟩
  | tx1 => exact .inr ⟨.s1, rfl⟩
  | txF => exact .inr ⟨.sf, rfl⟩
  | txNop => exact .inr ⟨.other, rfl⟩

theorem encode_decodeSymbol (y : Symbol) : encode (decodeSymbol y) = .inr y.code := by
  cases y <;> rfl

theorem decode_encode_commandInstr (l : Letter) (on : Bool) {a : AddrChars} (ha : wfAddr a = true) :
    decode (encode (commandInstr l on a)) = .ok (commandInstr l on a) := by
  rw [encode_commandInstr]
  exact (acceptedStringsAreTheCommands _ _).2 ⟨l, on, a, [], ha, rfl, (List.append_nil _).symm⟩

theorem decode_encode_decodeSymbol (y : Symbol) :
    decode (encode (decodeSymbol y)) = .ok (decodeSymbol y) := by
  rw [encode_decodeSymbol, decode, Symbol.ofCode_code]

/-- Settles O1: a command's string is an accepted one, with nothing after it; a symbol's code names the symbol. -/
theorem encodeThenDecodeIsIdentity : Obligations.EncodeThenDecodeIsIdentity := by
  intro i hi
  obtain ⟨l, on, a, rfl⟩ | ⟨y, rfl⟩ := i.command_or_symbol
  · exact decode_encode_commandInstr l on (commandInstr_wf l on a ▸ hi)
  · exact decode_encode_decodeSymbol y

/-! ### The packed word under the mask -/

theorem unpackCmd56_injective : Function.Injective unpackCmd56 :=
  Function.LeftInverse.injective packCmd56_unpackCmd56

/-- A mask acts on each character of a packed word by itself (R60, R86). -/
theorem unpackCmd56_and (w m : BitVec 56) :
    unpackCmd56 (w &&& m) = Vector.zipWith (· &&& ·) (unpackCmd56 w) (unpackCmd56 m) := by
  ext i hi : 1
  interval_cases i <;> simp [unpackCmd56, BitVec.extractLsb'_and]

/-- The address "00000", which the match of each row holds (R87). -/
def zeroAddr : AddrChars := #v[Byte.char0, Byte.char0, Byte.char0, Byte.char0, Byte.char0]

theorem unpackCmd56_commandMatch (l : Letter) (on : Bool) :
    unpackCmd56 (commandMatch l on) = commandChars l on zeroAddr := by
  cases l <;> cases on <;> rfl

/-- The mask leaves out the lowest bit of each address character and keeps the rest of the word (R87). -/
theorem unpackCmd56_commandMask :
    unpackCmd56 commandMask = #v[0xFE#8, 0xFE#8, 0xFE#8, 0xFE#8, 0xFE#8, 0xFF#8, 0xFF#8] := rfl

/-- '0' and '1' are the two bytes that differ from '0' in the lowest bit at most (R81, R87). -/
theorem isAddrChar_iff_masked (c : Byte) : isAddrChar c = true ↔ c &&& 0xFE#8 = Byte.char0 := by
  revert c; decide

theorem and_allOnes_byte (c : Byte) : c &&& 0xFF#8 = c :=
  BitVec.and_allOnes

/-- A word under the mask is a row's match exactly when its three fields are those of the row's commands (R86, R87). -/
theorem masked_eq_commandMatch_iff (w : BitVec 56) (l : Letter) (on : Bool) :
    w &&& commandMask = commandMatch l on ↔
      wfAddr (addrField (unpackCmd56 w)) = true ∧ (unpackCmd56 w)[5] = l.char ∧
        (unpackCmd56 w)[6] = stateChar on := by
  rw [← unpackCmd56_injective.eq_iff, unpackCmd56_and, unpackCmd56_commandMatch, unpackCmd56_commandMask,
    eq_commandChars_iff]
  generalize unpackCmd56 w = cmd
  have haddr : addrField (Vector.zipWith (· &&& ·) cmd
      #v[0xFE#8, 0xFE#8, 0xFE#8, 0xFE#8, 0xFE#8, 0xFF#8, 0xFF#8]) = zeroAddr ↔
      wfAddr (addrField cmd) = true := by
    simp [addrField, zeroAddr, wfAddr, isAddrChar_iff_masked, and_assoc]
  simp [haddr, and_allOnes_byte]

/-- The commands of one row, by the fields of the seven characters (R86). -/
theorem decodeCommand_row_iff (cmd : Vector Byte 7) (l : Letter) (on : Bool) :
    (∃ a, decodeCommand cmd = .ok (commandInstr l on a)) ↔
      wfAddr (addrField cmd) = true ∧ cmd[5] = l.char ∧ cmd[6] = stateChar on := by
  simp only [decodeCommand_ok_iff]
  constructor
  · rintro ⟨a, l', on', ha, hl, hs, hi⟩
    obtain ⟨rfl, rfl, -⟩ := commandInstr_injective hi
    exact ⟨ha, hl, hs⟩
  · rintro ⟨ha, hl, hs⟩
    exact ⟨_, l, on, ha, hl, hs, rfl⟩

/-- Settles O3: both sides say the same of the word's three fields, and the letter and the state are two of them. -/
theorem commandWordIsInstanceByMask : Obligations.CommandWordIsInstanceByMask := by
  refine ⟨fun w l on => ?_, fun w l l' on on' h h' => ?_⟩
  · rw [decodeCommand_row_iff, masked_eq_commandMatch_iff]
  · obtain ⟨-, hl, hs⟩ := (masked_eq_commandMatch_iff w l on).1 h
    obtain ⟨-, hl', hs'⟩ := (masked_eq_commandMatch_iff w l' on').1 h'
    exact ⟨Letter.char_injective (hl.symm.trans hl'), stateChar_injective (hs.symm.trans hs')⟩

/-- Settles O5, by running the decoder on the seven written words. -/
theorem writtenWordsDecode : Obligations.WrittenWordsDecode := by
  unfold Obligations.WrittenWordsDecode
  decide

/-! ### The characters beyond the seventh -/

theorem firstSeven_append {bs : List Byte} (h : 7 ≤ bs.length) (t : List Byte) :
    firstSeven (bs ++ t) = firstSeven bs := by
  cases hf : firstSeven bs with
  | none => exact absurd ((firstSeven_none_iff bs).1 hf) (by omega)
  | some cmd =>
    obtain ⟨rest, rfl⟩ := (firstSeven_some_iff bs cmd).1 hf
    exact (firstSeven_some_iff _ cmd).2 ⟨rest ++ t, List.append_assoc ..⟩

end Sys2Proof

namespace Sys2Proof.Machine

/-- A command reads its string only through the latch (R24, R118). -/
theorem parseAndSend_of_latchCommand_eq {bs bs' : List Byte} {s : State}
    (h : latchCommand bs s = latchCommand bs' s) : parseAndSend bs s = parseAndSend bs' s := by
  simp only [parseAndSend, h]

/-- Settles O6: the decoder and the latch read the first seven characters, and a command reads the latch. -/
theorem trailingBytesIgnored : Obligations.TrailingBytesIgnored := by
  intro bs t s hlen
  have hseven := firstSeven_append hlen t
  have hlatch : latchCommand (bs ++ t) s = latchCommand bs s := by simp only [latchCommand, hseven]
  exact ⟨by simp only [decodeBytes, hseven], hlatch, parseAndSend_of_latchCommand_eq hlatch⟩

end Sys2Proof.Machine

/-! PROOFS. The Command Parser (40_command_parser.md R110 to R129): the parsing step of each command, the sequencer's
steps from there to the last pulse, and what a whole command answers, whatever came before it. -/

namespace Sys2Proof

/-- A command's string is its address, its letter and its state character (R80). -/
theorem commandChars_toList (l : Letter) (on : Bool) (a : AddrChars) :
    (commandChars l on a).toList = a.toList ++ [l.char, stateChar on] := by
  rw [Machine.toList_of_five a]
  rfl

theorem decodeBytes_commandChars (l : Letter) (on : Bool) {a : AddrChars} (ha : wfAddr a = true) :
    decodeBytes (commandChars l on a).toList = .ok (commandInstr l on a) := by
  have hd := decode_encode_commandInstr l on ha
  rw [encode_commandInstr] at hd
  exact hd

/-- A well-formed command's packed word matches its row of the opcode map (R86, R87). -/
theorem packCmd56_commandChars_masked (l : Letter) (on : Bool) {a : AddrChars} (ha : wfAddr a = true) :
    packCmd56 (commandChars l on a) &&& commandMask = commandMatch l on := by
  obtain ⟨haddr, hl, hs⟩ := (eq_commandChars_iff (commandChars l on a) l on a).1 rfl
  rw [masked_eq_commandMatch_iff, unpackCmd56_packCmd56, haddr]
  exact ⟨ha, hl, hs⟩

end Sys2Proof

namespace Sys2Proof.Machine

open Sys2Proof.Claims

/-! ### The parsing step of a command -/

/-- The seven symbols after the address part in each command's codeword (R87, R120 to R127). -/
def commandTail (l : Letter) (on : Bool) : Vector Symbol 7 :=
  match l, on with
  | .a, false => tailA0
  | .a, true => tailA1
  | .b, false => tailB0
  | .b, true => tailB1
  | .c, false => tailC0
  | .c, true => tailC1
  | .d, false => tailD0
  | .d, true => tailD1

theorem commandCodeword_eq_codewordOf (l : Letter) (on : Bool) (a : AddrChars) :
    commandCodeword l on a = codewordOf a (commandTail l on) := by
  cases l <;> cases on <;> rfl

/-- No symbol of a command's codeword is without a row of `PULSEROM` (R147). -/
theorem commandCodeword_ne_other (l : Letter) (on : Bool) {a : AddrChars} (ha : wfAddr a = true)
    (i : Fin 12) : (commandCodeword l on a)[i] ≠ .other :=
  encodeCodeword_ne_other (encodeCodeword_command l on a ha) i

/-- The parsing step of a well-formed command writes as `parse_and_send` does, and enters the transmission (R118,
R173). -/
theorem acceptCommand_eq_setSeq (l : Letter) (on : Bool) {a : AddrChars} (ha : wfAddr a = true) (s : State) :
    acceptCommand l on a s = setSeq (Seq.repStart 0)
      (writeCw (commandCodeword l on a) (writeFields (channelOf l) on (writeAddr a s))) := by
  rw [acceptCommand_of_wf l on a s ha]
  rfl

theorem starts_commandInstr (l : Letter) (on : Bool) {a : AddrChars} (ha : wfAddr a = true) :
    Starts (commandInstr l on a) a (channelOf l) on (commandTail l on) := by
  intro s
  rw [exec_commandInstr, acceptCommand_of_wf l on a s ha, commandCodeword_eq_codewordOf]

/-- Settles O16: one lemma over the letter and the state, at each of the eight commands. -/
theorem commandsStartTheirTransmission : Obligations.CommandsStartTheirTransmission := fun _ ha =>
  ⟨starts_commandInstr .a false ha, starts_commandInstr .a true ha, starts_commandInstr .b false ha,
    starts_commandInstr .b true ha, starts_commandInstr .c false ha, starts_commandInstr .c true ha,
    starts_commandInstr .d false ha, starts_commandInstr .d true ha⟩

/-- Settles O18: the encoder refuses the address, so the parsing step is a `raise`. -/
theorem illFormedAddressRaisesInvalidEncoding : Obligations.IllFormedAddressRaisesInvalidEncoding := by
  intro l on a s ha
  refine ⟨_, exec_commandInstr l on a s, ?_⟩
  rw [acceptCommand_of_not_wf l on a s ha]
  exact ⟨⟨rfl, rfl, rfl, rfl, rfl, rfl, rfl, rfl, rfl, rfl⟩, rfl⟩

/-! ### From the parsing step to the last pulse -/

theorem symbolSteps_of_ne_other : ∀ {y : Symbol}, y ≠ .other → symbolSteps y = 4
  | .s0, _ | .s1, _ | .sf, _ => rfl
  | .other, h => absurd rfl h

theorem length_symbolPulses_of_ne_other : ∀ {y : Symbol}, y ≠ .other → (symbolPulses y).length = 2
  | .s0, _ | .s1, _ | .sf, _ => rfl
  | .other, h => absurd rfl h

/-- A quantity with one value at every symbol but the reserved one adds up to twelve times that value. -/
theorem sum_map_codeword {cw : Codeword} (hcw : ∀ i : Fin 12, cw[i] ≠ .other) {f : Symbol → Nat} {n : Nat}
    (hf : ∀ {y : Symbol}, y ≠ .other → f y = n) : (cw.toList.map f).sum = 12 * n := by
  have hall : ∀ x ∈ cw.toList.map f, x = n := by
    simp only [List.mem_map, Vector.mem_toList_iff]
    rintro _ ⟨y, hy, rfl⟩
    obtain ⟨i, hi, rfl⟩ := Vector.getElem_of_mem hy
    exact hf (hcw ⟨i, hi⟩)
  simpa using List.sum_eq_card_nsmul _ n hall

/-- A repetition of twelve symbols with rows takes fifty steps (R173, R244). -/
theorem repetitionSteps_eq {cw : Codeword} (hcw : ∀ i : Fin 12, cw[i] ≠ .other) : repetitionSteps cw = 50 := by
  rw [repetitionSteps, sum_map_codeword hcw symbolSteps_of_ne_other]

theorem sendRepetitions_setSeq (cw : Codeword) (n : Nat) (q : Seq) (s : State) :
    sendRepetitions cw n (setSeq q s) = setSeq q (sendRepetitions cw n s) := by
  induction n generalizing s with
  | zero => rfl
  | succ n ih => simp only [sendRepetitions, sendRepetition_setSeq, ih]

/-- The end of a command sets the position, whatever it was (R173). -/
theorem completeCommand_setSeq (q : Seq) (s : State) : completeCommand (setSeq q s) = completeCommand s := rfl

theorem nextRep_of_lt {rep : Fin 10} (h : rep.val + 1 < 10) : nextRep rep = some ⟨rep.val + 1, h⟩ :=
  dif_pos h

theorem nextRep_of_not_lt {rep : Fin 10} (h : ¬ rep.val + 1 < 10) : nextRep rep = none :=
  dif_neg h

/-- The repetitions from the start of `rep` to the last end the command (R161, R173). -/
theorem walk_repetitions (n : Nat) (s : State) (rep : Fin 10) (hh : s.host = [])
    (hq : s.seq = Seq.repStart rep) (hn : n + rep.val = 9) :
    runSteps ((n + 1) * repetitionSteps s.cw) s =
      .next (completeCommand (sendRepetitions s.cw (n + 1) s)) := by
  induction n generalizing s rep with
  | zero =>
    rw [Nat.zero_add, Nat.one_mul, walk_repetition s rep hh hq, nextRep_of_not_lt (by omega)]
    rfl
  | succ n ih =>
    have hlt : rep.val + 1 < 10 := by omega
    have hfirst := walk_repetition s rep hh hq
    rw [nextRep_of_lt hlt] at hfirst
    have hhost : (sendRepetition s.cw s).host = [] := by rw [sendRepetition_eq]; exact hh
    have hcw : (sendRepetition s.cw s).cw = s.cw := by rw [sendRepetition_eq]
    have hrest := ih (setSeq (Seq.repStart ⟨rep.val + 1, hlt⟩) (sendRepetition s.cw s)) _ hhost rfl
      (by simp; omega)
    rw [setSeq_cw, hcw, sendRepetitions_setSeq, completeCommand_setSeq] at hrest
    rw [Nat.succ_mul, Nat.add_comm, runSteps_add _ _ _ _ hfirst]
    exact hrest

/-- Left alone at the first half-pulse, the sequencer carries out `TRANSMIT` and ends the command (R172, R173). -/
theorem walk_transmission {s : State} (hh : s.host = []) (hq : s.seq = Seq.repStart 0) :
    runSteps (10 * repetitionSteps s.cw) s = .next (completeCommand (transmit s.cw s)) :=
  walk_repetitions 9 s 0 hh hq rfl

/-- Five hundred steps after its parsing step a command is over, as `parse_and_send` ends it (R118, R244). -/
theorem runSteps_acceptCommand (l : Letter) (on : Bool) {a : AddrChars} (ha : wfAddr a = true) {s : State}
    (hh : s.host = []) :
    runSteps 500 (acceptCommand l on a s) =
      .next (completeCommand (transmit (commandCodeword l on a) (writeCw (commandCodeword l on a)
        (writeFields (channelOf l) on (writeAddr a s))))) := by
  have hw := walk_transmission (s := setSeq (Seq.repStart 0) (writeCw (commandCodeword l on a)
    (writeFields (channelOf l) on (writeAddr a s)))) hh rfl
  rw [setSeq_cw, writeCw_cw, repetitionSteps_eq (commandCodeword_ne_other l on ha),
    transmit, sendRepetitions_setSeq, completeCommand_setSeq] at hw
  rw [acceptCommand_eq_setSeq l on ha, hw, transmit]

theorem switches_commandInstr (l : Letter) (on : Bool) {a : AddrChars} (ha : wfAddr a = true) :
    Switches (commandInstr l on a) a l.char (stateChar on) (commandMatch l on) (channelOf l) on
      (commandTail l on) := by
  refine ⟨?_, packCmd56_commandChars_masked l on ha, fun s hh => ?_⟩
  · rw [← commandChars_toList]
    exact decodeBytes_commandChars l on ha
  · have hrun := runSteps_acceptCommand l on ha hh
    rw [acceptCommand_of_wf l on a s ha, commandCodeword_eq_codewordOf, transmit_eq] at hrun
    exact ⟨_, _, starts_commandInstr l on ha s, rfl, rfl, rfl, hrun,
      rfl, rfl, rfl, rfl, rfl, rfl, rfl, rfl, rfl, rfl, hh, rfl⟩

/-- Settles O17: one lemma over the letter and the state, at each of the eight commands. -/
theorem commandsSwitchTheirChannel : Obligations.CommandsSwitchTheirChannel := fun _ ha =>
  ⟨switches_commandInstr .a false ha, switches_commandInstr .a true ha,
    switches_commandInstr .b false ha, switches_commandInstr .b true ha,
    switches_commandInstr .c false ha, switches_commandInstr .c true ha,
    switches_commandInstr .d false ha, switches_commandInstr .d true ha⟩

/-! ### Whole commands -/

/-- The parsing step of a string that decodes is its command's (R118). -/
theorem step_latchCommand_ok {bs : List Byte} {l : Letter} {on : Bool} {a : AddrChars}
    (hd : decodeBytes bs = .ok (commandInstr l on a)) {s : State} (hh : s.host = []) :
    step (latchCommand bs s) = .next (acceptCommand l on a (latchCommand bs s)) := by
  rw [step_of_no_host _ (by simpa using hh),
    blockStep_accept _ _ (by simp) ((decodeLatched_latchCommand bs s).trans hd), exec_commandInstr]

/-- Settles O30: after the submission and the parsing step, a rejected command is over and an accepted one is
transmitted. -/
theorem submissionRunsParseAndSend : Obligations.SubmissionRunsParseAndSend := by
  intro s bs h
  refine ⟨fun ⟨i, hd⟩ => ?_, fun ⟨e, hd⟩ => ?_⟩ <;> rw [runSteps_succ _ s _ (step_of_submits h)]
  · obtain ⟨l, on, a, ha, rfl⟩ := decodeBytes_ok_cases hd
    rw [runSteps_succ 500 _ _ (step_latchCommand_ok hd rfl), runSteps_acceptCommand l on ha (by simp),
      parseAndSend_of_ok hd]
  · rw [runSteps_succ 0 _ _ (step_latchCommand_error hd rfl), runSteps_zero, parseAndSend_of_error hd]

theorem latchCommand_congr {bs bs' : List Byte} (h : firstSeven bs = firstSeven bs') (s : State) :
    latchCommand bs s = latchCommand bs' s := by
  simp only [latchCommand, h]

/-- The status after a command is the string's alone (R32, R33, R128). -/
theorem parseAndSend_status_eq (bs : List Byte) (s s' : State) :
    (parseAndSend bs s).result = (parseAndSend bs s').result ∧
      (parseAndSend bs s).errChar = (parseAndSend bs s').errChar ∧
      (parseAndSend bs s).errPos = (parseAndSend bs s').errPos := by
  cases hd : decodeBytes bs with
  | error e => simp [parseAndSend_of_error hd]
  | ok i =>
    obtain ⟨l, on, a, -, rfl⟩ := decodeBytes_ok_cases hd
    simp [parseAndSend_of_ok hd]

/-- Settles O32: the two strings are one command, whose status is its own and whose events are those of its trace from
reset. -/
theorem commandIndependentOfHistory : Obligations.CommandIndependentOfHistory := by
  intro s s' bs bs' hT h
  rw [← parseAndSend_of_latchCommand_eq (latchCommand_congr h s')]
  obtain ⟨hr, hc, hp⟩ := parseAndSend_status_eq bs s s'
  exact ⟨hr, hc, hp, commandTrace s.cfg.tUnit bs, parseAndSend_trace bs s, hT ▸ parseAndSend_trace bs s'⟩

/-- Two pulses a symbol and the sync pulse, ten times over (R161, R162). -/
theorem length_transmissionPulses {cw : Codeword} (hcw : ∀ i : Fin 12, cw[i] ≠ .other) :
    (transmissionPulses cw).length = 250 := by
  have hrep : (repetitionPulses cw).length = 25 := by
    rw [repetitionPulses, List.length_append, List.length_flatMap,
      sum_map_codeword hcw length_symbolPulses_of_ne_other]
    rfl
  simp [transmissionPulses, hrep, Config.nRepeat]

theorem resultOf_ne_ok (e : CmdError) : resultOf e ≠ .ok := by
  cases e <;> simp [resultOf]

/-- Settles O33: a string that decodes is transmitted whole, one that does not is only rejected. -/
theorem commandIsAllOrNothing : Obligations.CommandIsAllOrNothing := by
  intro s bs
  cases hd : decodeBytes bs with
  | error e => exact .inr (by simp [parseAndSend_of_error hd, resultOf_ne_ok])
  | ok i =>
    obtain ⟨l, on, a, ha, rfl⟩ := decodeBytes_ok_cases hd
    refine .inl ⟨?_, commandCodeword l on a, length_transmissionPulses (commandCodeword_ne_other l on ha), ?_⟩ <;>
      simp [parseAndSend_of_ok hd, transmit_eq]

/-! ### `InvalidEncoding` is never recorded -/

theorem eq_invalidEncoding_of_resultOf {e : CmdError} (h : resultOf e = .invalidEncoding) :
    e = .invalidEncoding := by
  cases e <;> simp_all [resultOf]

/-- The sync pulse's step leaves `RESULT` as it is or, at the end of the command, writes `OK` (R173). -/
theorem syncHalf_result (rep : Fin 10) (half : Half) (s : State) :
    (syncHalf rep half s).result = s.result ∨ (syncHalf rep half s).result = .ok := by
  obtain ⟨-, he⟩ | ⟨-, r, -, he⟩ | ⟨-, -, he⟩ := syncHalf_cases rep half s <;> simp [he]

/-- A step of the block that records `InvalidEncoding` found it recorded: a rejection has another error, the end of a
transmission writes `OK`, and no other step writes `RESULT` (R117). -/
theorem blockStep_invalidEncoding {s t : State} (ht : blockStep s = .next t)
    (hr : t.result = .invalidEncoding) : s.result = .invalidEncoding := by
  obtain ⟨-, he⟩ | ⟨l, on, -, ha, he⟩ | ⟨e, -, hd, he⟩ | ⟨rep, sym, pul, half, -, he⟩ |
    ⟨rep, half, -, he⟩ := blockStep_cases s <;> rw [he] at ht <;> cases ht
  · exact hr
  · rwa [acceptCommand_of_wf l on _ s ha] at hr
  · rw [rejectCommand_result] at hr
    exact absurd (eq_invalidEncoding_of_resultOf hr ▸ hd) (decodeLatched_ne_invalidEncoding _ _)
  · rwa [stepSymbol_frame] at hr
  · obtain h | h := syncHalf_result rep half s
    · exact h ▸ hr
    · simp [h] at hr

/-- A move of the host leaves `RESULT` as it is, or sets it to its value after reset (R230, R243). -/
theorem hostMove_result {m : HostMove} {s t : State} (ht : hostMove m s = .next t) :
    t.result = s.result ∨ t.result = .none := by
  cases m with
  | reset =>
    obtain ⟨-, rfl⟩ := (hostReset_next_iff s t).1 ht
    exact .inr rfl
  | writeTUnit us =>
    obtain ⟨-, -, rfl⟩ := (hostWriteTUnit_next_iff us s t).1 ht
    exact .inl rfl
  | writeTxPin pin =>
    obtain ⟨-, rfl⟩ := (hostWriteTxPin_next_iff pin s t).1 ht
    exact .inl rfl
  | writeEnPin pin =>
    obtain ⟨-, rfl⟩ := (hostWriteEnPin_next_iff pin s t).1 ht
    exact .inl rfl
  | boot acquired =>
    obtain ⟨-, -, -, rfl⟩ := (hostBoot_next_iff acquired s t).1 ht
    exact .inl rfl
  | submit bs =>
    obtain ⟨-, -, rfl⟩ := (hostSubmit_next_iff bs s t).1 ht
    exact .inl (latchCommand_result bs s)
  | readStatus => cases ht; exact .inl rfl
  | observePin => cases ht; exact .inl rfl
  | shutdown =>
    obtain ⟨-, -, rfl⟩ := (hostShutdown_next_iff s t).1 ht
    exact .inl rfl

/-- Settles O35: taking the host's turn writes no register, and neither the block's step nor a move of the host records
`InvalidEncoding`. -/
theorem invalidEncodingIsNeverRecorded : Obligations.InvalidEncodingIsNeverRecorded := by
  intro s t ht hr
  cases hh : s.host with
  | nil => exact blockStep_invalidEncoding (step_of_no_host s hh ▸ ht) hr
  | cons turn rest =>
    cases turn with
    | wait => exact blockStep_invalidEncoding (s := { s with host := rest }) (step_of_wait s rest hh ▸ ht) hr
    | act m =>
      obtain h | h := hostMove_result (step_of_act s m rest hh ▸ ht)
      · exact h.symm.trans hr
      · simp [h] at hr

end Sys2Proof.Machine

/-! PROOFS. The Codeword Encoder (41_codeword_encoder.md R140 to R147): its domain, the three parts of a codeword
symbol by symbol, and that a codeword determines its operands. -/

namespace Sys2Proof.Machine

/-! ### The encoder's domain (R141) -/

theorem channelInRange_false_iff (c : BitVec 3) :
    channelInRange c = false ↔ c.toNat < 1 ∨ 5 < c.toNat := by
  simp only [channelInRange, Bool.and_eq_false_iff, decide_eq_false_iff_not, not_le]

theorem wfAddr_false_iff (a : AddrChars) :
    wfAddr a = false ↔ ∃ i : Fin 5, a[i] ≠ Byte.char0 ∧ a[i] ≠ Byte.char1 := by
  simp only [← Bool.not_eq_true, wfAddr_iff, isAddrChar_iff, not_forall, not_or, ne_eq]

/-- The encoder refuses a channel outside its range whatever the address. -/
theorem encodeCodeword_of_not_inRange (a : AddrChars) {c : BitVec 3} (on : Bool) (h : channelInRange c = false) :
    encodeCodeword a c on = none := by
  simp [encodeCodeword, h]

theorem encodeCodeword_none_iff (a : AddrChars) (c : BitVec 3) (on : Bool) :
    encodeCodeword a c on = none ↔ channelInRange c = false ∨ wfAddr a = false := by
  refine ⟨fun hnone => ?_, fun h => h.elim (encodeCodeword_of_not_inRange a on) (encodeCodeword_of_not_wf a c on)⟩
  by_contra hvalid
  obtain ⟨hc, ha⟩ : channelInRange c = true ∧ wfAddr a = true := by simpa using hvalid
  obtain ⟨row, hr, -⟩ := chRom_in_range c hc
  simp [encodeCodeword_of_valid a c on row ha hc hr] at hnone

/-- Settles O12: the encoder's two tests, and a command's channel passes the first, so a command that fails has an
ill-formed address, whose parsing step is a `raise`. -/
theorem encoderFailsExactlyOutsideItsDomain : Obligations.EncoderFailsExactlyOutsideItsDomain := by
  refine ⟨fun a c on => ?_, fun l on a s hnone => ?_⟩
  · rw [encodeCodeword_none_iff, channelInRange_false_iff, wfAddr_false_iff, or_assoc]
  · have ha : wfAddr a = false := by
      simpa [channelInRange_channelOf] using (encodeCodeword_none_iff a (channelOf l) on).1 hnone
    refine ⟨_, exec_commandInstr l on a s, ?_⟩
    rw [acceptCommand_of_not_wf l on a s ha]
    rfl

/-! ### The three parts of a codeword (R143 to R145) -/

theorem joinCodeword_addr (y row : Vector Symbol 5) (suf : Vector Symbol 2) (i : Fin 5) :
    (joinCodeword y row suf)[i.val] = y[i] := by
  fin_cases i <;> rfl

theorem joinCodeword_channel (y row : Vector Symbol 5) (suf : Vector Symbol 2) (p : Fin 5) :
    (joinCodeword y row suf)[5 + p.val] = row[p] := by
  fin_cases p <;> rfl

theorem encodeAddr_some_getElem {a : AddrChars} (ha : wfAddr a = true) {y : Vector Symbol 5}
    (hy : encodeAddr a = some y) (i : Fin 5) : y[i] = addrSymbol a[i] := by
  rw [encodeAddr_of_wf a ha, Option.some.injEq] at hy
  subst hy
  fin_cases i <;> rfl

section

variable {a : AddrChars} {c : BitVec 3} {on : Bool} {cw : Codeword}

theorem encodeCodeword_addr (h : encodeCodeword a c on = some cw) (i : Fin 5) :
    (a[i] = Byte.char0 ∧ cw[i.val] = .sf) ∨ (a[i] = Byte.char1 ∧ cw[i.val] = .s0) := by
  obtain ⟨ha, -, y, row, hy, -, rfl⟩ := encodeCodeword_some_cases h
  rw [joinCodeword_addr, encodeAddr_some_getElem ha hy]
  obtain hi | hi := (isAddrChar_iff _).1 ((wfAddr_iff a).1 ha i) <;> rw [hi] <;> decide

theorem encodeCodeword_channel_range (h : encodeCodeword a c on = some cw) : 1 ≤ c.toNat ∧ c.toNat ≤ 5 := by
  obtain ⟨-, hc, -⟩ := encodeCodeword_some_cases h
  simpa [channelInRange] using hc

theorem encodeCodeword_channel (h : encodeCodeword a c on = some cw) (p : Fin 5) :
    cw[5 + p.val] = if p.val + 1 = c.toNat then .s0 else .sf := by
  obtain ⟨-, hc, y, row, -, hr, rfl⟩ := encodeCodeword_some_cases h
  obtain ⟨row', hr', hrow⟩ := chRom_in_range c hc
  obtain rfl : row = row' := Option.some.inj (hr.symm.trans hr')
  rw [joinCodeword_channel, hrow]

theorem encodeCodeword_state (h : encodeCodeword a c on = some cw) :
    (on = true → cw[10] = .s0 ∧ cw[11] = .sf) ∧ (on = false → cw[10] = .sf ∧ cw[11] = .s0) := by
  obtain ⟨-, -, y, row, -, -, rfl⟩ := encodeCodeword_some_cases h
  exact ⟨fun hon => hon ▸ ⟨rfl, rfl⟩, fun hoff => hoff ▸ ⟨rfl, rfl⟩⟩

end

/-- Settles O13, one lemma for each part. -/
theorem encoderMapsEachPart : Obligations.EncoderMapsEachPart := by
  intro a c on cw h
  obtain ⟨hmin, hmax⟩ := encodeCodeword_channel_range h
  exact ⟨encodeCodeword_addr h, hmin, hmax, encodeCodeword_channel h, encodeCodeword_state h⟩

/-! ### A codeword determines its operands (R147) -/

section

variable {a a' : AddrChars} {c c' : BitVec 3} {on on' : Bool} {cw : Codeword}
  (h : encodeCodeword a c on = some cw) (h' : encodeCodeword a' c' on' = some cw)

include h h'

theorem encodeCodeword_addr_injective : a = a' := by
  refine Vector.ext fun i hi => ?_
  obtain ⟨ha, hy⟩ | ⟨ha, hy⟩ := encodeCodeword_addr h ⟨i, hi⟩ <;>
    obtain ⟨ha', hy'⟩ | ⟨ha', hy'⟩ := encodeCodeword_addr h' ⟨i, hi⟩
  · exact ha.trans ha'.symm
  · cases hy.symm.trans hy'
  · cases hy.symm.trans hy'
  · exact ha.trans ha'.symm

/-- The symbol `S0` stands at `channel - 1` of the channel part, and nowhere else there. -/
theorem encodeCodeword_channel_injective : c = c' := by
  obtain ⟨hmin, hmax⟩ := encodeCodeword_channel_range h
  have hp := encodeCodeword_channel h ⟨c.toNat - 1, by omega⟩
  have hp' := encodeCodeword_channel h' ⟨c.toNat - 1, by omega⟩
  rw [if_pos (Nat.sub_add_cancel hmin)] at hp
  refine BitVec.eq_of_toNat_eq ?_
  by_contra hne
  rw [if_neg (by simpa [Nat.sub_add_cancel hmin] using hne), hp] at hp'
  cases hp'

theorem encodeCodeword_state_injective : on = on' := by
  obtain ⟨hon, hoff⟩ := encodeCodeword_state h
  obtain ⟨hon', hoff'⟩ := encodeCodeword_state h'
  cases on <;> cases on'
  · rfl
  · cases (hoff rfl).1.symm.trans (hon' rfl).1
  · cases (hon rfl).1.symm.trans (hoff' rfl).1
  · rfl

end

/-- Settles O15: each operand is read back from its own part of the codeword. -/
theorem encoderIsInjective : Obligations.EncoderIsInjective := fun _ _ _ _ _ _ _ h h' =>
  ⟨encodeCodeword_addr_injective h h', encodeCodeword_channel_injective h h', encodeCodeword_state_injective h h'⟩

end Sys2Proof.Machine

/-! PROOFS. The waveform transmitter (42_waveform_transmitter.md): the half-pulses and what the symbol operations make
of them (R163 to R166), the sync pulse (R167), the counts and the shape of the waveform (R174, R175), and what every
step of the block does to the pin (R169, R170). -/

namespace Sys2Proof.Machine

open Sys2Proof.Claims

/-! ### Half-pulses -/

theorem highHalf_eq (p : Pulse) (s : State) :
    highHalf p s =
      { s with tx := .high, trace := s.trace ++ [.set .high, .delay (p.high * s.cfg.tUnit)] } := by
  simp [highHalf, delay, setOutput]

theorem lowHalf_eq (p : Pulse) (s : State) :
    lowHalf p s =
      { s with tx := .low, trace := s.trace ++ [.set .low, .delay (p.low * s.cfg.tUnit)] } := by
  simp [lowHalf, delay, setOutput]

/-- The widths of `PULSEROM` are 1 and 3 (R54). -/
theorem pulseRom_widths {y : Symbol} {row : Vector Pulse 2} (h : pulseRom y = some row) (pul : Fin 2) :
    (row[pul].high = 1 ∨ row[pul].high = 3) ∧ (row[pul].low = 1 ∨ row[pul].low = 3) := by
  have hall : ∀ pul : Fin 2, ∀ row ∈ pulseRom y,
      (row[pul].high = 1 ∨ row[pul].high = 3) ∧ (row[pul].low = 1 ∨ row[pul].low = 3) := by
    cases y <;> decide
  exact hall pul row h

/-! ### The symbol operations -/

/-- A symbol with a row of `PULSEROM`, sent whole, is its two pulses. -/
theorem sendSymbol_eq_twoPulses {y : Symbol} {p0 p1 : Pulse} (hp : pulseRom y = some #v[p0, p1]) (s : State) :
    sendSymbol y s =
      { s with tx := .low, trace := s.trace ++ twoPulses s.cfg.tUnit p0.high p0.low p1.high p1.low } := by
  rw [sendSymbol_eq, if_neg (by simp [hp]), symbolEvents, symbolPulses, hp]
  rfl

/-- The operation of a symbol with a row of `PULSEROM` sends the row, a half-pulse a step (R163 to R165, R173). -/
theorem sendsTwoPulses_decodeSymbol {y : Symbol} {p0 p1 : Pulse} (hp : pulseRom y = some #v[p0, p1]) :
    SendsTwoPulses (decodeSymbol y) y p0.high p0.low p1.high p1.low := by
  intro s rep sym
  rw [exec_decodeSymbol]
  refine ⟨fun hq => ?_, fun hq => ?_, fun hq => ?_, fun hq => ?_, fun hq hy hh => ?_⟩
  · rw [stepSymbol_high hq hp, highHalf_eq]; rfl
  · rw [stepSymbol_low hq hp, lowHalf_eq]; rfl
  · rw [stepSymbol_high hq hp, highHalf_eq]; rfl
  · rw [stepSymbol_low hq hp, lowHalf_eq]; rfl
  · have hw := walk_symbol s rep sym hh hq
    rw [hy, symbolSteps, hp, sendSymbol_eq_twoPulses hp] at hw
    exact hw

/-- Settles O19, from the row of '0' in `PULSEROM`. -/
theorem tx0SendsTwoShortPulses : Obligations.Tx0SendsTwoShortPulses :=
  ⟨sendsTwoPulses_decodeSymbol (y := .s0) rfl, rfl, rfl⟩

/-- Settles O20, from the row of '1' in `PULSEROM`. -/
theorem tx1SendsTwoLongPulses : Obligations.Tx1SendsTwoLongPulses :=
  ⟨sendsTwoPulses_decodeSymbol (y := .s1) rfl, rfl, rfl⟩

/-- Settles O21, from the row of 'F' in `PULSEROM`. -/
theorem txFSendsShortThenLong : Obligations.TxFSendsShortThenLong :=
  ⟨sendsTwoPulses_decodeSymbol (y := .sf) rfl, rfl, rfl⟩

/-- Settles O22: the reserved code has no row, so its step only moves on, and the encoder answers no such symbol. -/
theorem txNopSendsNothing : Obligations.TxNopSendsNothing := by
  refine ⟨fun s rep sym pul half hq => ?_, fun _ _ _ _ h => encodeCodeword_ne_other h⟩
  have hskip : stepSymbol .other s = { s with seq := placeAfter rep sym } := stepSymbol_skip hq rfl
  refine ⟨congrArg _ hskip, fun hy hh => ?_⟩
  rw [step_of_no_host s hh, blockStep_data s rep sym pul half hq, hy, hskip]

/-- Settles O24: where there is no position to step through, each operation is its symbol sent whole. -/
theorem symbolOpsAloneSendTheWholeSymbol : Obligations.SymbolOpsAloneSendTheWholeSymbol := by
  intro s hq
  have hexec (y : Symbol) : exec (decodeSymbol y) s = .next (sendSymbol y s) := by
    rw [exec_decodeSymbol, stepSymbol_whole y s hq]
  have hsend {y : Symbol} {p0 p1 : Pulse} (hp : pulseRom y = some #v[p0, p1]) :=
    (hexec y).trans (congrArg _ (sendSymbol_eq_twoPulses hp s))
  exact ⟨hsend (y := .s0) rfl, hsend (y := .s1) rfl, hsend (y := .sf) rfl, hexec .other⟩

/-! ### The sync pulse and the transmission -/

/-- Settles O23: the two halves of the sync pulse, the low one before the tenth repetition's end and at it. -/
theorem syncPulseEndsEachRepetition : Obligations.SyncPulseEndsEachRepetition := by
  intro s rep hh
  have hstep {half : Half} (hq : s.seq = .tx rep .sync half) : step s = .next (syncHalf rep half s) := by
    rw [step_of_no_host s hh, blockStep_sync s rep half hq]
  refine ⟨fun hq => ?_, fun hlt hq => ?_, ?_⟩
  · rw [hstep hq, syncHalf, highHalf_eq]; rfl
  · rw [hstep hq, syncHalf, nextRep_of_lt hlt, lowHalf_eq]; rfl
  · rintro rfl hq
    exact ⟨completeCommand (lowHalf syncRom s), hstep hq,
      by simp [syncRom], rfl, rfl, rfl, rfl, rfl, rfl, rfl, rfl, rfl, rfl⟩

/-- Settles O26, by what the ten repetitions append. -/
theorem transmitAppendsTheWaveform : Obligations.TransmitAppendsTheWaveform := transmit_eq

/-- Settles O29, by the walk through the ten repetitions. -/
theorem sequencerCarriesOutTransmit : Obligations.SequencerCarriesOutTransmit := fun _ => walk_transmission

/-! ### What a pulse list counts (R175, R177) -/

theorem length_flatMap_pulseEvents (T : Nat) (ps : List Pulse) :
    (ps.flatMap (pulseEvents T)).length = 4 * ps.length := by
  induction ps with
  | nil => rfl
  | cons p ps ih => simp [pulseEvents, ih]; omega

theorem setCount_flatMap_pulseEvents (l : Level) (T : Nat) (ps : List Pulse) :
    setCount l (ps.flatMap (pulseEvents T)) = ps.length := by
  induction ps with
  | nil => rfl
  | cons p ps ih =>
    have hp : (pulseEvents T p).count (.set l) = 1 := by cases l <;> simp [pulseEvents]
    rw [setCount] at ih ⊢
    rw [List.flatMap_cons, List.count_append, ih, hp, List.length_cons, Nat.add_comm]

theorem delayCount_flatMap_pulseEvents (T : Nat) (ps : List Pulse) :
    delayCount (ps.flatMap (pulseEvents T)) = 2 * ps.length := by
  induction ps with
  | nil => rfl
  | cons p ps ih =>
    have hp : (pulseEvents T p).countP isDelay = 2 := rfl
    rw [delayCount] at ih ⊢
    rw [List.flatMap_cons, List.countP_append, ih, hp, List.length_cons]
    omega

theorem delaySum_flatMap_pulseEvents (T : Nat) (ps : List Pulse) :
    delaySum (ps.flatMap (pulseEvents T)) = unitSum ps * T := by
  induction ps with
  | nil => simp [delaySum, unitSum]
  | cons p ps ih =>
    simp only [delaySum, unitSum] at ih ⊢
    simp [pulseEvents, eventUs, ih]
    ring

/-! ### The counts of a repetition and of a transmission -/

/-- A sum over a repetition's pulses is its sum over each symbol's, and the sync pulse's share (R162). -/
theorem sum_map_repetitionPulses (f : Pulse → Nat) (cw : Codeword) :
    ((repetitionPulses cw).map f).sum =
      (cw.toList.map fun y => ((symbolPulses y).map f).sum).sum + f syncRom := by
  simp [repetitionPulses, List.flatMap, List.sum_flatten, Function.comp_def]

theorem length_transmissionPulses_eq_mul (cw : Codeword) :
    (transmissionPulses cw).length = 10 * (repetitionPulses cw).length := by
  rw [transmissionPulses, List.length_flatten, List.map_replicate, List.sum_replicate]; rfl

theorem unitSum_transmissionPulses_eq_mul (cw : Codeword) :
    unitSum (transmissionPulses cw) = 10 * unitSum (repetitionPulses cw) := by
  rw [unitSum, transmissionPulses, List.map_flatten, List.map_replicate, List.sum_flatten, List.map_replicate,
    List.sum_replicate]
  rfl

theorem unitSum_symbolPulses_of_ne_other : ∀ {y : Symbol}, y ≠ .other → unitSum (symbolPulses y) = 8
  | .s0, _ | .s1, _ | .sf, _ => rfl
  | .other, h => absurd rfl h

theorem unitSum_repetitionPulses {cw : Codeword} (hcw : ∀ i : Fin 12, cw[i] ≠ .other) :
    unitSum (repetitionPulses cw) = 128 := by
  have hsum := sum_map_codeword hcw unitSum_symbolPulses_of_ne_other
  simp only [unitSum] at hsum ⊢
  rw [sum_map_repetitionPulses, hsum]
  rfl

/-- A symbol 'F' holds the pin high for 4 units and a symbol '0' for 2 less (R163, R165). -/
theorem highUnits_symbols_add_count (ys : List Symbol) (hys : ∀ y ∈ ys, y = .s0 ∨ y = .sf) :
    (ys.map fun y => highUnits (symbolPulses y)).sum + 2 * ys.count .s0 = 4 * ys.length := by
  induction ys with
  | nil => rfl
  | cons y ys ih =>
    obtain ⟨hy, hys⟩ := List.forall_mem_cons.1 hys
    have hrest := ih hys
    rcases hy with rfl | rfl <;> simp [highUnits, symbolPulses, pulseRom] at hrest ⊢ <;> omega

theorem highUnits_repetitionPulses_add_count {cw : Codeword} (hcw : ∀ i : Fin 12, cw[i] = .s0 ∨ cw[i] = .sf) :
    highUnits (repetitionPulses cw) + 2 * cw.toList.count .s0 = 49 := by
  have hmem : ∀ y ∈ cw.toList, y = .s0 ∨ y = .sf := by
    intro y hy
    obtain ⟨i, hi, rfl⟩ := Vector.getElem_of_mem (Vector.mem_toList_iff.1 hy)
    exact hcw ⟨i, hi⟩
  have hsum := highUnits_symbols_add_count cw.toList hmem
  rw [Vector.length_toList] at hsum
  have hrep : highUnits (repetitionPulses cw) =
      (cw.toList.map fun y => highUnits (symbolPulses y)).sum + 1 := sum_map_repetitionPulses _ cw
  omega

/-- Settles O27: every count is one of the pulse list's length and its units, 25 pulses and 128 units a repetition. -/
theorem transmissionCounts : Obligations.TransmissionCounts := by
  intro cw T hcw
  have hlen : (transmissionPulses cw).length = 250 := length_transmissionPulses hcw
  have hrep : (repetitionPulses cw).length = 25 := by
    have := length_transmissionPulses_eq_mul cw
    omega
  have hunits := unitSum_repetitionPulses hcw
  have hunits' : unitSum (transmissionPulses cw) = 1280 := by
    rw [unitSum_transmissionPulses_eq_mul, hunits]
  refine ⟨hrep, ?_, hunits, hlen, hunits', ?_, ?_, ?_, ?_, ?_, highUnits_repetitionPulses_add_count⟩
  · rw [length_flatMap_pulseEvents, hrep]
  · rw [transmissionEvents, length_flatMap_pulseEvents, hlen]
  · rw [transmissionEvents, setCount_flatMap_pulseEvents, hlen]
  · rw [transmissionEvents, setCount_flatMap_pulseEvents, hlen]
  · rw [transmissionEvents, delayCount_flatMap_pulseEvents, hlen]
  · rw [transmissionEvents, delaySum_flatMap_pulseEvents, hunits']

/-! ### The shape of the waveform (R174) -/

theorem segments_cons (T : Nat) (p : Pulse) (ps : List Pulse) :
    segments T (p :: ps) = (.high, p.high * T) :: (.low, p.low * T) :: segments T ps := rfl

theorem length_segments (T : Nat) (ps : List Pulse) : (segments T ps).length = 2 * ps.length := by
  induction ps with
  | nil => rfl
  | cons p ps ih => simp [segments_cons, ih]; omega

/-- Pulses of positive widths make segments that alternate from high on, each of a positive duration. -/
theorem segments_getElem {T : Nat} (hT : 1 ≤ T) (ps : List Pulse)
    (hps : ∀ p ∈ ps, 0 < p.high ∧ 0 < p.low) (i : Nat) (hi : i < (segments T ps).length) :
    (segments T ps)[i].1 = (if i % 2 = 0 then .high else .low) ∧ 0 < (segments T ps)[i].2 := by
  induction ps generalizing i with
  | nil => exact absurd hi (Nat.not_lt_zero i)
  | cons p ps ih =>
    obtain ⟨⟨hhigh, hlow⟩, hps⟩ := List.forall_mem_cons.1 hps
    match i with
    | 0 => exact ⟨rfl, Nat.mul_pos hhigh hT⟩
    | 1 => exact ⟨rfl, Nat.mul_pos hlow hT⟩
    | i + 2 =>
      rw [Nat.add_mod_right]
      exact ih hps i (by simp only [segments_cons, List.length_cons] at hi; omega)

theorem symbolPulses_pos {y : Symbol} {p : Pulse} (h : p ∈ symbolPulses y) : 0 < p.high ∧ 0 < p.low := by
  have hall : ∀ p ∈ symbolPulses y, 0 < p.high ∧ 0 < p.low := by cases y <;> decide
  exact hall p h

theorem transmissionPulses_pos {cw : Codeword} {p : Pulse} (h : p ∈ transmissionPulses cw) :
    0 < p.high ∧ 0 < p.low := by
  obtain ⟨ps, hps, hp⟩ := List.mem_flatten.1 h
  rw [List.eq_of_mem_replicate hps] at hp
  obtain hp | hp := List.mem_append.1 hp
  · obtain ⟨y, -, hy⟩ := List.mem_flatMap.1 hp
    exact symbolPulses_pos hy
  · obtain rfl := List.mem_singleton.1 hp
    decide

/-- Settles O28: two segments for each of the 250 pulses, whose widths are all positive. -/
theorem waveformAlternates : Obligations.WaveformAlternates := by
  intro cw T hcw hT
  refine ⟨?_, segments_getElem hT _ fun p hp => transmissionPulses_pos hp⟩
  rw [length_segments, length_transmissionPulses hcw]

/-! ### Every step of the block -/

/-- The block's own step is never stopped (R244). -/
theorem blockStep_answers (s : State) : ∃ t, blockStep s = .next t := by
  obtain ⟨-, he⟩ | ⟨_, _, -, -, he⟩ | ⟨_, -, -, he⟩ | ⟨_, _, _, _, -, he⟩ | ⟨_, _, -, he⟩ :=
    blockStep_cases s <;> exact ⟨_, he⟩

/-- Settles O40, by induction on the number of steps: each answers, and leaves the host without a turn. -/
theorem blockAloneNeverStops : Obligations.BlockAloneNeverStops := by
  intro s n hh
  induction n generalizing s with
  | zero => exact ⟨s, rfl⟩
  | succ n ih =>
    obtain ⟨u, hu⟩ := blockStep_answers s
    obtain ⟨-, -, -, hhost⟩ := blockNeverWritesConfiguration s u hu
    rw [runSteps_succ n s u ((step_of_no_host s hh).trans hu)]
    exact ih u (hhost.trans hh)

/-- Settles O42: parsing and idling touch neither pin nor trace; inside a transmission each step is a half-pulse of
`PULSEROM` or of the sync pulse, or passes over a symbol without a row. -/
theorem pinMovesOnlyByHalfPulses : Obligations.PinMovesOnlyByHalfPulses := by
  intro s t ht
  obtain ⟨-, he⟩ | ⟨l, on, -, ha, he⟩ | ⟨e, -, -, he⟩ | ⟨rep, sym, pul, half, hq, he⟩ |
    ⟨rep, half, -, he⟩ := blockStep_cases s <;> rw [he] at ht <;> cases ht
  · exact .inl ⟨rfl, rfl⟩
  · rw [acceptCommand_of_wf l on _ s ha]
    exact .inl ⟨rfl, rfl⟩
  · exact .inl ⟨rejectCommand_trace e s, rejectCommand_tx e s⟩
  · obtain ⟨-, hs⟩ | ⟨row, hr, -, hs⟩ | ⟨row, hr, -, hs⟩ :=
      stepSymbol_cases s.cw[sym] s rep sym pul half hq <;> rw [hs]
    · exact .inl ⟨rfl, rfl⟩
    · exact .inr ⟨.high, row[pul].high, (pulseRom_widths hr pul).1.imp_right .inl, rfl, highHalf_trace _ s⟩
    · exact .inr ⟨.low, row[pul].low, (pulseRom_widths hr pul).2.imp_right .inl, rfl, lowHalf_trace _ s⟩
  · obtain ⟨-, hs⟩ | ⟨-, r, -, hs⟩ | ⟨-, -, hs⟩ := syncHalf_cases rep half s <;> rw [hs]
    · exact .inr ⟨.high, 1, .inl rfl, rfl, highHalf_trace _ s⟩
    · exact .inr ⟨.low, 31, .inr (.inr rfl), rfl, lowHalf_trace _ s⟩
    · exact .inr ⟨.low, 31, .inr (.inr rfl), rfl, lowHalf_trace _ s⟩

end Sys2Proof.Machine

/-! PROOFS. The rejections (60_exceptions.md R191 to R194): the parsing step of a string that does not decode ends the
command with that string's error, and `ADDR` holds what R25 gives for the step that failed. -/

namespace Sys2Proof.Machine

open Sys2Proof.Claims

/-- The parsing step rejects a latched string with the error it decodes to (R111 to R114). -/
theorem blockStep_latchCommand_error {bs : List Byte} {e : CmdError} (hd : decodeBytes bs = .error e)
    (s : State) : blockStep (latchCommand bs s) = .next (rejectCommand e (latchCommand bs s)) :=
  blockStep_reject _ e (latchCommand_seq bs s) ((decodeLatched_latchCommand bs s).trans hd)

/-- Latching and rejecting record the error and touch nothing else that a rejection must keep (R197, R199). -/
theorem rejected_rejectCommand_latchCommand (e : CmdError) (bs : List Byte) (s : State) :
    Rejected s (rejectCommand e (latchCommand bs s)) (resultOf e) (errCharOf e) (errPosOf e) := by
  simp [Rejected, State.busy]

/-- A rejection for its length leaves `ADDR` alone (R25 (4)). -/
@[simp] theorem rejectCommand_invalidLength_addr (s : State) :
    (rejectCommand .invalidLength s).addr = s.addr := rfl

/-- A failed step 1 leaves free address characters in `ADDR` (R25 (3)). -/
@[simp] theorem rejectCommand_invalidAddressChar_addr (c : Byte) (p : Fin 5) (s : State) :
    (rejectCommand (.invalidAddressChar c p) s).addr = addrOfBits (Config.freeAddr s.draws) := rfl

/-- Once step 1 has passed `ADDR` holds the command's address (R25 (2)). -/
@[simp] theorem rejectCommand_invalidChannelChar_addr (c : Byte) (s : State) :
    (rejectCommand (.invalidChannelChar c) s).addr = addrField s.cmd := rfl

@[simp] theorem rejectCommand_invalidStateChar_addr (c : Byte) (s : State) :
    (rejectCommand (.invalidStateChar c) s).addr = addrField s.cmd := rfl

/-- The latched address field is the string's first five characters (R24, R58). -/
theorem addrField_latchCommand {bs : List Byte} (h : 7 ≤ bs.length) (s : State) (q : Fin 5) :
    bs[q.val]? = some (addrField (latchCommand bs s).cmd)[q] := by
  cases hf : firstSeven bs with
  | none => exact absurd ((firstSeven_none_iff bs).1 hf) (by omega)
  | some cmd =>
    rw [latchCommand_some bs s cmd hf]
    exact addrField_getElem_of_string (firstSeven_getElem bs cmd hf) q

/-- Settles O8: a short string decodes to `InvalidLength`, which leaves `ADDR` alone. -/
theorem shortCommandIsRejected : Obligations.ShortCommandIsRejected := by
  intro s bs hlen
  have hd := (decodeBytes_invalidLength_iff bs).2 hlen
  exact ⟨_, blockStep_latchCommand_error hd s, rejected_rejectCommand_latchCommand _ bs s, rfl,
    by simp⟩

/-- Settles O9: the least offending position is the one the decoder reports. -/
theorem badAddressCharIsRejected : Obligations.BadAddressCharIsRejected := by
  intro s bs p c hlen hc hbad hgood
  have hd := (decodeBytes_invalidAddressChar_iff bs c p).2 ⟨hlen, hc, hbad, hgood⟩
  exact ⟨_, blockStep_latchCommand_error hd s, rejected_rejectCommand_latchCommand _ bs s, rfl,
    by simp [wfAddr_addrOfBits]⟩

/-- Settles O10: the letter is tested after a good address, which `ADDR` keeps. -/
theorem badChannelCharIsRejected : Obligations.BadChannelCharIsRejected := by
  intro s bs c hlen hgood hc hA hB hC hD
  have hd := (decodeBytes_invalidChannelChar_iff bs c).2 ⟨hlen, hgood, hc, hA, hB, hC, hD⟩
  exact ⟨_, blockStep_latchCommand_error hd s, rejected_rejectCommand_latchCommand _ bs s, rfl,
    by simpa using addrField_latchCommand hlen s⟩

/-- Settles O11: the state character is tested after a good address and letter, and `ADDR` keeps the address. -/
theorem badStateCharIsRejected : Obligations.BadStateCharIsRejected := by
  intro s bs l c hlen hgood hl hc h0 h1
  have hd := (decodeBytes_invalidStateChar_iff bs c).2 ⟨hlen, hgood, ⟨l, hl⟩, hc, h0, h1⟩
  exact ⟨_, blockStep_latchCommand_error hd s, rejected_rejectCommand_latchCommand _ bs s, rfl,
    by simpa using addrField_latchCommand hlen s⟩

end Sys2Proof.Machine

/-! PROOFS. The moves of the host that reset, boot, read and shut down (70_reset_and_hazards.md R230 to R233, R243),
when a step answers (R243, R244), and the end of every command (R242, R244). -/

namespace Sys2Proof.Machine

/-! ### Every command ends -/

theorem Half.stepsLeft_bounds (half : Half) : 1 ≤ half.stepsLeft ∧ half.stepsLeft ≤ 2 := by
  cases half <;> decide

theorem Slot.stepsLeft_le (slot : Slot) : slot.stepsLeft ≤ 48 := by
  cases slot with
  | data sym pul => simp only [Slot.stepsLeft]; omega
  | sync => exact Nat.zero_le _

/-- The parsing step and 10 repetitions of 50 steps are the most that can be left (R244). -/
theorem Seq.stepsLeft_le (q : Seq) : q.stepsLeft ≤ 501 := by
  cases q with
  | idle => exact Nat.zero_le _
  | parse => exact le_rfl
  | tx rep slot half =>
    have hslot := slot.stepsLeft_le
    obtain ⟨-, hhalf⟩ := half.stepsLeft_bounds
    simp only [Seq.stepsLeft]
    omega

/-- A symbol passed over is left from any of its four half-pulses, the last one among them (R166). -/
theorem Seq.stepsLeft_afterSymbol_lt (rep : Fin 10) (sym : Fin 12) (pul : Fin 2) (half : Half) :
    (Seq.afterSymbol rep sym).stepsLeft < (Seq.tx rep (.data sym pul) half).stepsLeft := by
  have hlast := Seq.stepsLeft_afterSymbol rep sym
  have hone : Half.l.stepsLeft = 1 := rfl
  obtain ⟨hhalf, -⟩ := half.stepsLeft_bounds
  simp only [Seq.stepsLeft, Slot.stepsLeft] at hlast ⊢
  omega

theorem stepSymbol_stepsLeft_lt (y : Symbol) {s : State} {rep : Fin 10} {sym : Fin 12} {pul : Fin 2}
    {half : Half} (hq : s.seq = .tx rep (.data sym pul) half) :
    (stepSymbol y s).seq.stepsLeft < s.seq.stepsLeft := by
  obtain ⟨-, he⟩ | ⟨_, -, rfl, he⟩ | ⟨_, -, rfl, he⟩ := stepSymbol_cases y s rep sym pul half hq <;>
    rw [he, hq]
  · exact Seq.stepsLeft_afterSymbol_lt rep sym pul half
  · exact Nat.lt_succ_self _
  · exact Nat.lt_of_succ_le (Seq.stepsLeft_afterPulse rep sym pul).le

theorem syncHalf_stepsLeft_lt {s : State} {rep : Fin 10} {half : Half} (hq : s.seq = .tx rep .sync half) :
    (syncHalf rep half s).seq.stepsLeft < s.seq.stepsLeft := by
  obtain ⟨rfl, he⟩ | ⟨rfl, r, hr, he⟩ | ⟨rfl, hr, he⟩ := syncHalf_cases rep half s <;> rw [he, hq]
  · exact Nat.lt_succ_self _
  · exact Nat.lt_of_succ_le (stepsLeft_of_nextRep_some hr).le
  · rw [stepsLeft_of_nextRep_none hr]
    exact Nat.zero_lt_one

/-- Every step of a busy block takes at least one off the steps left, whatever is latched or being sent. -/
theorem blockStep_stepsLeft_lt {s t : State} (hb : s.busy = true) (ht : blockStep s = .next t) :
    t.seq.stepsLeft < s.seq.stepsLeft := by
  obtain ⟨hq, -⟩ | ⟨l, on, hq, ha, he⟩ | ⟨e, hq, -, he⟩ | ⟨rep, sym, pul, half, hq, he⟩ |
    ⟨rep, half, hq, he⟩ := blockStep_cases s
  · exact absurd hq ((busy_eq_true_iff s).1 hb)
  all_goals rw [he] at ht; cases ht
  · rw [acceptCommand_of_wf l on _ s ha, hq]
    exact Nat.lt_succ_self 500
  · rw [rejectCommand_seq, hq]
    decide
  · exact stepSymbol_stepsLeft_lt _ hq
  · exact syncHalf_stepsLeft_lt hq

/-- Left alone, the block is idle after no more steps than its position has left. -/
theorem idle_within_stepsLeft (n : Nat) (s : State) (hh : s.host = []) (hn : s.seq.stepsLeft ≤ n) :
    ∃ k t, k ≤ n ∧ runSteps k s = .next t ∧ t.busy = false := by
  induction n generalizing s with
  | zero =>
    have hq : s.seq = .idle := (Seq.stepsLeft_eq_zero_iff _).1 (Nat.le_zero.1 hn)
    exact ⟨0, s, le_rfl, rfl, (busy_eq_false_iff s).2 hq⟩
  | succ n ih =>
    cases hb : s.busy with
    | false => exact ⟨0, s, Nat.zero_le _, rfl, hb⟩
    | true =>
      obtain ⟨u, hu⟩ := blockStep_answers s
      obtain ⟨-, -, -, hhost⟩ := blockNeverWritesConfiguration s u hu
      have hlt := blockStep_stepsLeft_lt hb hu
      obtain ⟨k, t, hk, ht, hidle⟩ := ih u (hhost.trans hh) (by omega)
      exact ⟨k + 1, t, Nat.succ_le_succ hk,
        (runSteps_succ k s u ((step_of_no_host s hh).trans hu)).trans ht, hidle⟩

/-- Settles O41: no position has more than 501 steps left. -/
theorem everyCommandEnds : Obligations.EveryCommandEnds := fun s hh =>
  idle_within_stepsLeft 501 s hh s.seq.stepsLeft_le

/-! ### When a step answers -/

/-- A move of the host is answered exactly when the table of R243 calls it legal. -/
theorem hostMove_answers_iff (m : HostMove) (s : State) :
    (∃ t, hostMove m s = .next t) ↔ m.legal s = true := by
  cases m with
  | reset => simp [hostMove, hostReset_next_iff, HostMove.legal]
  | writeTUnit us => simp [hostMove, hostWriteTUnit_next_iff, HostMove.legal]
  | writeTxPin pin => simp [hostMove, hostWriteTxPin_next_iff, HostMove.legal]
  | writeEnPin pin => simp [hostMove, hostWriteEnPin_next_iff, HostMove.legal]
  | boot acquired => simp [hostMove, hostBoot_next_iff, HostMove.legal, and_assoc]
  | submit bs => simp [hostMove, hostSubmit_next_iff, HostMove.legal]
  | readStatus => simp [hostMove, hostReadStatus, HostMove.legal]
  | observePin => simp [hostMove, hostObservePin, HostMove.legal]
  | shutdown => simp [hostMove, hostShutdown_next_iff, HostMove.legal]

/-- Whether a move is legal does not depend on the turns still to come. -/
theorem HostMove.legal_of_host (m : HostMove) (s : State) (rest : List HostTurn) :
    m.legal { s with host := rest } = m.legal s := by
  cases m <;> rfl

/-- Settles O39: the block's own step always answers, and a move of the host exactly when it is legal. -/
theorem stepAnswersExactlyWhenHostIsLegal : Obligations.StepAnswersExactlyWhenHostIsLegal := by
  intro s
  unfold SafeStep State.hostLegal
  cases hh : s.host with
  | nil => simpa [step_of_no_host s hh] using blockStep_answers s
  | cons turn rest =>
    cases turn with
    | wait => simpa [step_of_wait s rest hh] using blockStep_answers { s with host := rest }
    | act m =>
      rw [step_of_act s m rest hh, hostMove_answers_iff, m.legal_of_host]

/-! ### The moves that boot, shut down and reset -/

theorem hostBoot_wrongPhase (acquired : Bool) {s : State} (hp : s.phase ≠ .init) :
    hostBoot acquired s = .refused .bootWrongPhase := by
  simp [hostBoot, hp]

theorem hostBoot_pinsNotGiven (acquired : Bool) {s : State} (hp : s.phase = .init)
    (hpins : s.cfg.txPin = none ∨ s.cfg.enPin = none) :
    hostBoot acquired s = .refused .pinsNotGiven := by
  obtain htx | hen := hpins
  · simp [hostBoot, hp, htx]
  · cases htx : s.cfg.txPin <;> simp [hostBoot, hp, htx, hen]

theorem hostBoot_pinsNotDistinct (acquired : Bool) {s : State} {p : PinId} (hp : s.phase = .init)
    (htx : s.cfg.txPin = some p) (hen : s.cfg.enPin = some p) :
    hostBoot acquired s = .refused .pinsNotDistinct := by
  simp [hostBoot, hp, htx, hen]

theorem hostBoot_pinsNotAcquired {s : State} {p q : PinId} (hp : s.phase = .init)
    (htx : s.cfg.txPin = some p) (hen : s.cfg.enPin = some q) (hne : p ≠ q) :
    hostBoot false s = .refused .pinsNotAcquired := by
  simp [hostBoot, hp, htx, hen, hne]

theorem pinsReady_of_distinct {c : Cfg} {p q : PinId} (htx : c.txPin = some p) (hen : c.enPin = some q)
    (hne : p ≠ q) : pinsReady c = true := by
  simp [pinsReady, htx, hen, hne]

/-- Settles O48: each refusal and the boot by its own lemma. -/
theorem bootEntersActive : Obligations.BootEntersActive := by
  intro s acquired rest hh
  rw [step_of_act s _ rest hh]
  refine ⟨fun hp => hostBoot_wrongPhase acquired hp, fun hp hpins => hostBoot_pinsNotGiven acquired hp hpins,
    fun p q hp htx hen => ⟨?_, ?_, fun hne hacq => ?_⟩⟩
  · rintro rfl
    exact hostBoot_pinsNotDistinct acquired hp htx hen
  · rintro hne rfl
    exact hostBoot_pinsNotAcquired hp htx hen hne
  · exact (hostBoot_next_iff acquired _ _).2 ⟨hp, pinsReady_of_distinct htx hen hne, hacq, rfl⟩

theorem hostShutdown_wrongPhase {s : State} (hp : s.phase ≠ .active) :
    hostShutdown s = .refused .shutdownWrongPhase := by
  simp [hostShutdown, hp]

theorem hostShutdown_whileBusy {s : State} (hp : s.phase = .active) (hb : s.busy = true) :
    hostShutdown s = .refused .shutdownWhileBusy := by
  simp [hostShutdown, hp, hb]

/-- Settles O49, from the two refusals of a shutdown and the one it is answered. -/
theorem shutdownEntersStopped : Obligations.ShutdownEntersStopped := by
  intro s rest hh
  rw [step_of_act s _ rest hh]
  exact ⟨fun hp => hostShutdown_wrongPhase hp, fun hp hb => hostShutdown_whileBusy hp hb,
    fun hp hb => (hostShutdown_next_iff _ _).2 ⟨hp, hb, rfl⟩⟩

theorem hostReset_whileBusy {s : State} (hb : s.busy = true) :
    hostReset s = .refused .resetWhileBusy := by
  simp [hostReset, hb]

/-- Settles O50, from the refusal while busy and the reset of an idle block. -/
theorem hostResetRestoresReset : Obligations.HostResetRestoresReset := by
  intro s rest hh
  rw [step_of_act s _ rest hh]
  exact ⟨fun hb => hostReset_whileBusy hb, fun hb => (hostReset_next_iff _ _).2 ⟨hb, rfl⟩⟩

/-- Settles O51: the turn is taken, and the move answers the state it finds. -/
theorem statusReadsChangeNothing : Obligations.StatusReadsChangeNothing := fun s rest =>
  ⟨fun hh => step_of_act s _ rest hh, fun hh => step_of_act s _ rest hh⟩

end Sys2Proof.Machine
